-- ==== Sys2Proof/Word.lean ====
section
/-! DEFINITION. The word types of the CORE: plain bit vectors of the widths the spec gives (00_scope.md R12, 10_state.md R44). -/

namespace Sys2Proof

/-- A `word`: a 32-bit unsigned value (00_scope.md R12). -/
abbrev Word := BitVec 32

/-- A byte: the unit of a `byte` operand and of a hash character (30_encoding.md R82). -/
abbrev Byte := BitVec 8

/-- A FIFO word: 30 bits, one candidate or domain value (10_state.md R27, R37, R44). -/
abbrev OutWord := BitVec 30

/-- An entry of SVAL or BKT: 17 bits (10_state.md R33, R34). -/
abbrev Offset := BitVec 17

end Sys2Proof
end

