-- ==== Sys2Proof/Syntax.lean ====
section
/-! DEFINITION. What the host can say to the CORE: the eleven commands of spec/opcode_table.json, the register accesses of the window, the operations of a host program, and the assembler lines. -/

namespace Sys2Proof

/-- The commands of the opcode map (30_encoding.md R84), one per row of spec/opcode_table.json. A command word has
no operand field: its operand is what CMD_ARG holds when it is issued (30_encoding.md R80). -/
inductive Instr where
  | construct
  | hashReset
  | hashChar
  | hashLoad
  | crack
  | tableRead
  | resultLoad
  | crcUpdate
  | digest
  | digestPad
  | lookup
deriving DecidableEq, Repr

/-- The forms in which a command uses CMD_ARG (30_encoding.md R82). -/
inductive OperandForm where
  | none
  | byte
  | word
deriving DecidableEq, Repr

/-- A host access of the register window: byte offset, size in bytes and, for a write, the data
(20_memory.md R50, 00_scope.md R16). -/
inductive Access where
  | read (off size : Nat)
  | write (off size : Nat) (v : Word)
deriving DecidableEq, Repr

/-- One operation of a host program: an access, or one of the two loops of 30_encoding.md R90 and R91. -/
inductive HostOp where
  /-- One register access. -/
  | access (a : Access)
  /-- POLL: read STATUS until BUSY reads 0 (30_encoding.md R90). -/
  | poll
  /-- DRAIN: read OUT_DATA until VALID reads 0 (30_encoding.md R91). -/
  | drain
deriving DecidableEq, Repr

/-- A written operand of an assembler line: a number, or a character literal (30_encoding.md R89). -/
inductive AsmOperand where
  | num (n : Nat)
  | chr (c : Byte)
deriving DecidableEq, Repr

/-- An assembler line (30_encoding.md R89 to R91). -/
inductive Line where
  /-- An empty line, or one that holds a comment only. -/
  | blank
  /-- `MNEMONIC` or `MNEMONIC operand`. -/
  | command (i : Instr) (operand : Option AsmOperand)
  /-- `W off, value`. -/
  | writeReg (off value : Nat)
  /-- `R off`. -/
  | readReg (off : Nat)
  /-- `POLL`. -/
  | poll
  /-- `CONSTRUCT` with no operand. -/
  | constructDefault
  /-- `HASH "s"`, the string as its bytes. -/
  | hash (s : List Byte)
  /-- `CRACK_HEX "s"`. -/
  | crackHex (s : List Byte)
  /-- `CRC_BYTES s0, b1, ..., bk`. -/
  | crcBytes (s0 : Nat) (bs : List AsmOperand)
  /-- `WAIT`. -/
  | wait
  /-- `DRAIN`. -/
  | drain
deriving DecidableEq, Repr

end Sys2Proof
end

