-- ==== Sys2Proof/WellFormed.lean ====
section
/-! DEFINITION. Which accesses and which command words the spec calls legal. A value of `Instr` has no field, so nothing of it can be ill-formed: what can be is the OP word that stands for it and the access that carries it. -/

namespace Sys2Proof

/-- A legal access (20_memory.md R52, R53): 32 bits wide, at a multiple of 4, below the reserved offsets. -/
def legalOffset (off size : Nat) : Bool :=
  size == 4 && off % 4 == 0 && decide (off < 0x24)

/-- The legality of an access, read or write (20_memory.md R52, R53). -/
def Access.legal : Access → Bool
  | .read off size => legalOffset off size
  | .write off size _ => legalOffset off size

/-- OPCODES: the opcodes of the opcode map (30_encoding.md R84). -/
def opcodes : List Byte :=
  [0x01#8, 0x02#8, 0x03#8, 0x04#8, 0x05#8, 0x10#8, 0x11#8, 0x12#8, 0x13#8, 0x14#8, 0x15#8]

/-- A legal OP word (30_encoding.md R81, R85; 44_engine_control.md R220): RSV is zero and OPC is in the map. -/
def legalOpWord (v : Word) : Bool :=
  v.extractLsb' 8 24 == 0#24 && opcodes.contains (v.extractLsb' 0 8)

end Sys2Proof
end

