-- ==== Sys2Proof/Decode.lean ====
section
/-! DEFINITION. The command decoder, total on every 32-bit OP word (30_encoding.md R88), and after it the encoder (R81, R84). -/

namespace Sys2Proof

/-- Why an OP word names no command (30_encoding.md R81, R85). Both are ILLEGAL_COMMAND to the host. -/
inductive DecodeError where
  /-- RSV, bits [31:8], is not zero. -/
  | reservedBits (rsv : BitVec 24)
  /-- OPC is a reserved opcode. -/
  | reservedOpcode (opc : Byte)
deriving DecidableEq, Repr

/-- OPC, bits [7:0] of an OP word (30_encoding.md R81). -/
def opcField (v : Word) : Byte := v.extractLsb' 0 8

/-- RSV, bits [31:8] of an OP word (30_encoding.md R81). -/
def rsvField (v : Word) : BitVec 24 := v.extractLsb' 8 24

/-- The command an opcode names (30_encoding.md R84, R85). -/
def decodeOpc (opc : Byte) : Except DecodeError Instr :=
  if opc = 0x01#8 then .ok .construct
  else if opc = 0x02#8 then .ok .hashReset
  else if opc = 0x03#8 then .ok .hashChar
  else if opc = 0x04#8 then .ok .hashLoad
  else if opc = 0x05#8 then .ok .crack
  else if opc = 0x10#8 then .ok .tableRead
  else if opc = 0x11#8 then .ok .resultLoad
  else if opc = 0x12#8 then .ok .crcUpdate
  else if opc = 0x13#8 then .ok .digest
  else if opc = 0x14#8 then .ok .digestPad
  else if opc = 0x15#8 then .ok .lookup
  else .error (.reservedOpcode opc)

/-- The decoder: every OP word is one of the eleven commands or is rejected by name (30_encoding.md R88). -/
def decode (v : Word) : Except DecodeError Instr :=
  if rsvField v = 0#24 then decodeOpc (opcField v) else .error (.reservedBits (rsvField v))

/-- The opcode of a command (30_encoding.md R84). -/
def Instr.opc : Instr → Byte
  | .construct => 0x01#8
  | .hashReset => 0x02#8
  | .hashChar => 0x03#8
  | .hashLoad => 0x04#8
  | .crack => 0x05#8
  | .tableRead => 0x10#8
  | .resultLoad => 0x11#8
  | .crcUpdate => 0x12#8
  | .digest => 0x13#8
  | .digestPad => 0x14#8
  | .lookup => 0x15#8

/-- The OP word of a command: RSV zero, OPC its opcode (30_encoding.md R81, R84). -/
def encode (i : Instr) : Word := 0#24 ++ i.opc

/-- The first `nbits` bits of `w` as the one OP word of a command: none where bits remain above it (30_encoding.md R87). -/
def tableWord (nbits w : Nat) : Option Word :=
  if w % 2 ^ nbits < 2 ^ 32 then some (BitVec.ofNat 32 (w % 2 ^ nbits)) else none

/-- The command the decoder reads from the bits `w`, numbered as spec/opcode_table.json numbers them. The OP word
is one bus word, so no byte order enters (20_memory.md R55). -/
def decodeTableWord (nbits w : Nat) : Option Instr :=
  (tableWord nbits w).bind fun v => (decode v).toOption

end Sys2Proof
end

