-- ==== Sys2Proof/Config.lean ====
section
/-! DEFINITION. The implementation parameters of the CORE: the fixed ones of 00_scope.md R9 and R10 with their values, and the one the spec leaves OPEN (OUT_DEPTH, 00_scope.md R11), which has no value here. -/

namespace Sys2Proof.Config

/-- DOM_N: size of the indexed domain [0, 100000) (00_scope.md R9). -/
def domN : Nat := 100000

/-- BKT_KEYS: number of bucket keys (00_scope.md R9). -/
def bktKeys : Nat := 65536

/-- BKT_N: entries of the running-sum array, one sentinel included (00_scope.md R9). -/
def bktN : Nat := 65537

/-- HYP_MAX: number of padding-length hypotheses, fixed at 9 in this hardware (00_scope.md R9, R10). -/
def hypMax : Nat := 9

/-- HYP_SPLIT: first hypothesis that uses a high-order prefix (00_scope.md R9). -/
def hypSplit : Nat := 6

/-- PAD_ROUNDS: zero-value rounds of a padded digest (00_scope.md R9). -/
def padRounds : Nat := 5

/-- PAD_BYTE: the byte fed to the prefix register per hypothesis (00_scope.md R9). -/
def padByte : Byte := 0x30#8

/-- PREG_INIT: the initial prefix register (00_scope.md R9). -/
def pregInit : Word := 0xFFFFFFFF#32

/-- FINAL_XOR: the constant XORed with the parsed hash (00_scope.md R9). -/
def finalXor : Word := 0xFFFFFFFF#32

/-- DEFAULT_POLY: the default polynomial, also the reset value of CMD_ARG (00_scope.md R9, R11). -/
def defaultPoly : Word := 0xEDB88320#32

/-- CAND_LIMIT: every candidate is below it (00_scope.md R9). -/
def candLimit : Nat := 10 ^ 9

/-- The part of OUT_DEPTH the spec leaves open (log entry 1): a natural number with no value in the model. -/
opaque outDepthLessOne : Nat

/-- OUT_DEPTH: the capacity of the output FIFO, OPEN, an integer >= 1 (00_scope.md R11, 92_eei_decisions.md D17).
Nothing but `1 ≤ outDepth` can be proved of it. -/
def outDepth : Nat := outDepthLessOne + 1

end Sys2Proof.Config
end

