-- ==== Sys2Proof/Machine/State.lean ====
section
/-! DEFINITION. The state of the CORE and of its environment, as plain data; the reasons a step could stop; the state after reset (10_state.md). -/

namespace Sys2Proof.Machine

/-- STATUS.ERR, the outcome of the most recent CMD_OP write (10_state.md R25, 60_exceptions.md R241). The values 4 to 7
are never produced, so the type has no name for them. -/
inductive ErrCode where
  /-- 0: the write was accepted. -/
  | none
  /-- 1: ILLEGAL_COMMAND. -/
  | illegalCommand
  /-- 2: BUSY. -/
  | busy
  /-- 3: NOT_BUILT. -/
  | notBuilt
deriving DecidableEq, Repr

/-- CUR, the long command in progress (10_state.md R38). STATUS.BUSY is 1 exactly when it is not `none`. -/
inductive Cur where
  | none
  | construct
  | lookup
  | crack
deriving DecidableEq, Repr

/-- The five internal arrays of a completed construction (10_state.md R30 to R34). -/
structure Index where
  /-- TBL: the lookup table, index = byte value (R30). -/
  tbl : Vector Word 256
  /-- DIG: the digest of each domain value (R31). -/
  dig : Vector Word Config.domN
  /-- SDIG: the digests sorted by bucket (R32). -/
  sdig : Vector Word Config.domN
  /-- SVAL: the domain values, parallel to SDIG (R33). -/
  sval : Vector Offset Config.domN
  /-- BKT: the start offset of each bucket, and the sentinel (R34). -/
  bkt : Vector Offset Config.bktN
deriving DecidableEq, Repr

/-- Who moves next: an agent of 20_memory.md R61, or the reset input of 70_reset_and_hazards.md R270. -/
inductive Turn where
  | host
  | engine
  | reset
deriving DecidableEq, Repr

/-- The bus's answer to the host's last access (20_memory.md R53, 60_exceptions.md R247; log entry 5). -/
inductive Response where
  /-- No access has been made since reset. -/
  | none
  /-- A write completed. -/
  | done
  /-- A read returned data. -/
  | data (w : Word)
  /-- A BusFault: no data, and no state of the CORE changed. -/
  | busFault
deriving DecidableEq, Repr

/-- The machine. The first twelve fields are the spec's state (10_state.md); the last three are the model's own
environment. BUSY and CUR are stored once, as `cur` (log entry 4); BUILT and the arrays once, as `index` (log entry 3);
OUT_LEVEL, OUT_NONEMPTY and OUT_FULL are views of `outq`. -/
structure State where
  /-- CMD_ARG (R24). -/
  cmdArg : Word
  /-- STATUS.ERR (R25). -/
  err : ErrCode
  /-- RESULT (R26). -/
  result : Word
  /-- HASH_ACC (R29). -/
  hashAcc : Word
  /-- POLY (R35). -/
  poly : Word
  /-- CAND_COUNT (R36). -/
  candCount : Word
  /-- TBL, DIG, SDIG, SVAL and BKT, present exactly while STATUS.BUILT = 1 (R25, R43). -/
  index : Option Index
  /-- OUTQ, head first (R37). -/
  outq : List OutWord
  /-- CUR, and with it STATUS.BUSY (R38). -/
  cur : Cur
  /-- OPND (R38). -/
  opnd : Word
  /-- TGT (R39, 44_engine_control.md R227). -/
  tgt : Word
  /-- PEND, next word first (R38). -/
  pend : List OutWord
  /-- The host's operations not yet performed, oldest first (the model's own; log entry 2). -/
  hostq : List HostOp
  /-- The order in which the agents move (the model's own; log entry 2). -/
  sched : List Turn
  /-- The bus's answer to the last access (the model's own; log entry 5). -/
  resp : Response
deriving DecidableEq, Repr

/-- No step of this machine stops with a fault: a BusFault is an answer to the host after which the CORE goes on
(60_exceptions.md R247), and an accepted command never fails (R248). So nothing raises one, which is safe. -/
inductive Fault where
deriving DecidableEq, Repr

/-- Why the model would give an instruction no meaning. -/
inductive Refusal where
  /-- Raised only by an arm of `exec` whose instruction has no meaning yet; no arm is left so. Safe. -/
  | notModelled (mnemonic : String)
deriving DecidableEq, Repr

/-- The state after reset (10_state.md R42, 70_reset_and_hazards.md R270). TGT is unspecified there and 0 here (log
entry 6); the environment's fields start empty (log entries 2 and 5). -/
def State.reset : State where
  cmdArg := Config.defaultPoly
  err := .none
  result := 0#32
  hashAcc := 0#32
  poly := 0#32
  candCount := 0#32
  index := none
  outq := []
  cur := .none
  opnd := 0#32
  tgt := 0#32
  pend := []
  hostq := []
  sched := []
  resp := .none

end Sys2Proof.Machine
end

