-- ==== Sys2Proof/Machine/Flags.lean ====
section
/-! DEFINITION. The flags of the CORE and the register views computed from them (10_state.md R25, R27, R28, R41). There are no arithmetic condition codes. -/

namespace Sys2Proof.Machine

/-- The 3-bit code of STATUS.ERR (60_exceptions.md R241). -/
def ErrCode.code : ErrCode → BitVec 3
  | .none => 0#3
  | .illegalCommand => 1#3
  | .busy => 2#3
  | .notBuilt => 3#3

/-- STATUS.BUSY: 1 exactly when CUR is not NONE (10_state.md R25, R38). -/
def State.busy (s : State) : Bool :=
  match s.cur with
  | .none => false
  | .construct | .lookup | .crack => true

/-- STATUS.BUILT: 1 exactly when TBL and the bucket index hold a completed construction (10_state.md R25, R43). -/
def State.built (s : State) : Bool := s.index.isSome

/-- STATUS.OUT_NONEMPTY: OUT_LEVEL > 0 (10_state.md R25). -/
def State.outNonempty (s : State) : Bool := decide (0 < s.outq.length)

/-- STATUS.OUT_FULL: OUT_LEVEL = OUT_DEPTH (10_state.md R25). -/
def State.outFull (depth : Nat) (s : State) : Bool := decide (s.outq.length = depth)

/-- STATUS as the host reads it: [31:7] zero, OUT_FULL, OUT_NONEMPTY, ERR, BUILT, BUSY (10_state.md R25). -/
def State.status (depth : Nat) (s : State) : Word :=
  0#25 ++ BitVec.ofBool (s.outFull depth) ++ BitVec.ofBool s.outNonempty ++ s.err.code
    ++ BitVec.ofBool s.built ++ BitVec.ofBool s.busy

/-- OUT_LEVEL as the host reads it (10_state.md R28). -/
def State.outLevel (s : State) : Word := BitVec.ofNat 32 s.outq.length

/-- The value an OUT_DATA read returns for a popped word: VALID, a zero, the value (10_state.md R27, 44_engine_control.md R231). -/
def outDataOf (v : OutWord) : Word := 1#1 ++ 0#1 ++ v

/-- The value an OUT_DATA read returns: the head of OUTQ with VALID = 1, or zero (10_state.md R27). -/
def State.outData (s : State) : Word :=
  match s.outq with
  | [] => 0#32
  | v :: _ => outDataOf v

end Sys2Proof.Machine
end

