-- ==== Sys2Proof/Machine/Operands.lean ====
section
/-! DEFINITION. The operand forms of the commands and the columns of the opcode map (30_encoding.md R82 to R84). -/

namespace Sys2Proof.Machine

/-- The `byte` operand: CMD_ARG[7:0]; the bits above are ignored (30_encoding.md R82, R83). -/
def State.byteOperand (s : State) : Byte := s.cmdArg.extractLsb' 0 8

/-- The `word` operand: CMD_ARG (30_encoding.md R82, R83). -/
def State.wordOperand (s : State) : Word := s.cmdArg

/-- The `word` operand as the natural number n of DIGEST and DIGEST_PAD (30_encoding.md R83). -/
def State.natOperand (s : State) : Nat := s.cmdArg.toNat

/-- The operand form of a command (30_encoding.md R82, R84). -/
def operandForm : Instr → OperandForm
  | .hashReset | .crack => .none
  | .hashChar | .tableRead | .crcUpdate => .byte
  | .construct | .hashLoad | .resultLoad | .digest | .digestPad | .lookup => .word

/-- The column `needs BUILT` of the opcode map (30_encoding.md R84, 60_exceptions.md R245). -/
def needsBuilt : Instr → Bool
  | .crack | .tableRead | .crcUpdate | .digest | .digestPad | .lookup => true
  | .construct | .hashReset | .hashChar | .hashLoad | .resultLoad => false

/-- The column `kind` of the opcode map: the commands that stay in progress after their issue
(30_encoding.md R84, 44_engine_control.md R223). -/
def isLong : Instr → Bool
  | .construct | .lookup | .crack => true
  | .hashReset | .hashChar | .hashLoad | .tableRead | .resultLoad | .crcUpdate | .digest | .digestPad => false

end Sys2Proof.Machine
end

