-- ==== Sys2Proof/Machine/Ops.lean ====
section
/-! DEFINITION. The named operations over the state that the commands, the engine and the bus are written with: register writes, the refusal of a command (the CORE's only form of exception, 60_exceptions.md R240, R250, R251) and the issue of one. -/

namespace Sys2Proof.Machine

/-- What a step answers. -/
abbrev Result := Host.Outcome State Fault Refusal

/-- A total array read: every index the rules compute is in range (20_memory.md R60), and an index outside, which only
states no run reaches can give, reads as zero (log entry 12). -/
def rd {α : Type} [Inhabited α] {n : Nat} (v : Vector α n) (i : Nat) : α := v[i]?.getD default

/-! ### Register writes -/

/-- RESULT <- w (10_state.md R26). -/
def State.setResult (s : State) (w : Word) : State := { s with result := w }

/-- HASH_ACC <- w (10_state.md R29). -/
def State.setHashAcc (s : State) (w : Word) : State := { s with hashAcc := w }

/-- CMD_ARG <- w (10_state.md R24). -/
def State.setCmdArg (s : State) (w : Word) : State := { s with cmdArg := w }

/-! ### Refusal and acceptance -/

/-- `raise Refuse(code)`: STATUS.ERR <- code and nothing else (60_exceptions.md R240). This is the whole of taking an
exception here: no state is saved, no mode changes, no vector is taken, and there is no return (R250, R251). -/
def State.refuse (s : State) (code : ErrCode) : State := { s with err := code }

/-- An accepted command: STATUS.ERR <- 0 (44_engine_control.md R220). -/
def State.accept (s : State) : State := { s with err := .none }

/-- The issue of a command that does not need BUILT: the refusal checks, then its effect (44_engine_control.md R220). -/
def issue (s : State) (effect : State → State) : Result :=
  if s.busy then .next (s.refuse .busy) else .next (effect s.accept)

/-- The issue of a command that needs BUILT: the refusal checks in the order of 60_exceptions.md R242, then its effect,
which reads the arrays (44_engine_control.md R220, 60_exceptions.md R245). -/
def issueBuilt (s : State) (effect : Index → State → State) : Result :=
  if s.busy then .next (s.refuse .busy)
  else
    match s.index with
    | none => .next (s.refuse .notBuilt)
    | some ix => .next (effect ix s.accept)

/-! ### Long commands -/

/-- The issue of CONSTRUCT: OPND and POLY <- the polynomial, BUILT <- 0, CUR <- CONSTRUCT, BUSY <- 1
(44_engine_control.md R224). -/
def State.beginConstruct (s : State) (poly : Word) : State :=
  { s with opnd := poly, poly := poly, index := none, cur := .construct }

/-- The part of the issue of LOOKUP and CRACK that they share: OUTQ <- [], CAND_COUNT <- 0, PEND <- the whole output,
CUR <- the command, BUSY <- 1 (44_engine_control.md R227). -/
def State.beginSearch (s : State) (cur : Cur) (words : List OutWord) : State :=
  { s with outq := [], candCount := 0#32, pend := words, cur := cur }

/-- OPND <- w, the operand latch (44_engine_control.md R221, R227). -/
def State.latchOpnd (s : State) (w : Word) : State := { s with opnd := w }

/-- TGT <- w, the target latch of CRACK (44_engine_control.md R227). -/
def State.latchTgt (s : State) (w : Word) : State := { s with tgt := w }

/-- The end of a CONSTRUCT: the arrays are there, BUILT <- 1, CUR <- NONE, BUSY <- 0 (44_engine_control.md R225). -/
def State.endConstruct (s : State) (ix : Index) : State := { s with index := some ix, cur := .none }

/-- The end of a LOOKUP or CRACK: CUR <- NONE, BUSY <- 0 (44_engine_control.md R230). -/
def State.endSearch (s : State) : State := { s with cur := .none }

/-! ### The output FIFO -/

/-- `push(v)`: append at the tail of OUTQ and count (44_engine_control.md R229). -/
def State.push (s : State) (v : OutWord) : State :=
  { s with outq := s.outq ++ [v], candCount := s.candCount + 1#32 }

/-- PEND <- the words that remain to be pushed (44_engine_control.md R228). -/
def State.setPend (s : State) (words : List OutWord) : State := { s with pend := words }

/-- The pop of an OUT_DATA read: OUTQ without its first word, or unchanged when empty (44_engine_control.md R231). -/
def State.pop (s : State) : State := { s with outq := s.outq.tail }

/-! ### The environment -/

/-- The bus answers the host (20_memory.md R53). -/
def State.respond (s : State) (r : Response) : State := { s with resp := r }

/-- The host's operations that remain (log entry 2). -/
def State.setHostq (s : State) (ops : List HostOp) : State := { s with hostq := ops }

/-- The turns that remain (log entry 2). -/
def State.setSched (s : State) (ts : List Turn) : State := { s with sched := ts }

/-- Reset at any time: every piece of the CORE's state takes its reset value (70_reset_and_hazards.md R270, R271). What
the host has still to do and the turns to come are outside the CORE and stay (log entry 2). -/
def State.resetCore (s : State) : State := { State.reset with hostq := s.hostq, sched := s.sched }

end Sys2Proof.Machine
end

