-- ==== Sys2Proof/Machine/PolyTable.lean ====
section
/-! DEFINITION. PolyTable: the table generator and TABLE_READ (40_polytable.md). -/

namespace Sys2Proof.Machine

/-- One step of the table loop: shift right, and XOR the polynomial when the low bit was set (40_polytable.md R100). -/
def tableStep (poly r : Word) : Word :=
  if r.getLsbD 0 then (r >>> 1) ^^^ poly else r >>> 1

/-- The table entry of byte b: eight steps from the zero-extended byte (40_polytable.md R100). -/
def tableEntry (poly : Word) (b : Byte) : Word := (tableStep poly)^[8] (b.setWidth 32)

/-- TableGen(poly): the 256 entries, index = byte value (40_polytable.md R100). -/
def tableGen (poly : Word) : Vector Word 256 :=
  Vector.ofFn fun b : Fin 256 => tableEntry poly (BitVec.ofNat 8 b.val)

/-- TBL[x] for a byte x (40_polytable.md R105, 20_memory.md R60). -/
def tblAt (tbl : Vector Word 256) (x : Byte) : Word := tbl[x.toNat]'x.isLt

/-- TABLE_READ: RESULT <- TBL[CMD_ARG[7:0]] (40_polytable.md R105). -/
def execTableRead (s : State) : Result :=
  issueBuilt s fun ix t => t.setResult (tblAt ix.tbl t.byteOperand)

end Sys2Proof.Machine
end

