-- ==== Sys2Proof/Machine/DigitCrc.lean ====
section
/-! DEFINITION. DigitCrc: the register transition, the digest function and the commands on RESULT (41_digitcrc.md). -/

namespace Sys2Proof.Machine

/-- Update(tbl, s, b) = tbl[(s XOR b) & 0xFF] XOR (s >> 8) (41_digitcrc.md R120). -/
def update (tbl : Vector Word 256) (s : Word) (b : Byte) : Word :=
  tblAt tbl ((s ^^^ b.setWidth 32).extractLsb' 0 8) ^^^ (s >>> 8)

/-- R(s, [b1, ..., bk]): the register after feeding bytes from s (41_digitcrc.md R125). -/
def feed (tbl : Vector Word 256) (s : Word) (bs : List Byte) : Word := bs.foldl (update tbl) s

/-- The decimal digits of n while fuel lasts, most significant first (41_digitcrc.md R122). -/
def digitsFuel : Nat → Nat → List Nat
  | 0, _ => []
  | fuel + 1, n => if n = 0 then [] else digitsFuel fuel (n / 10) ++ [n % 10]

/-- Digits(n): the decimal digits, most significant first, none for 0 (41_digitcrc.md R122). The fuel n suffices, since
n has at most n digits. -/
def digits (n : Nat) : List Nat := digitsFuel n n

/-- A digit's raw numeric value as the byte that is fed (41_digitcrc.md R123). -/
def digitByte (d : Nat) : Byte := BitVec.ofNat 8 d

/-- DigestOf(tbl, n, pad): from a clear register, the digits, then five zero rounds when pad is set; no final XOR
(41_digitcrc.md R123). -/
def digestOf (tbl : Vector Word 256) (n : Nat) (pad : Bool) : Word :=
  let s := feed tbl 0#32 ((digits n).map digitByte)
  if pad then feed tbl s (List.replicate Config.padRounds 0#8) else s

/-- RESULT_LOAD: RESULT <- CMD_ARG (41_digitcrc.md R127). -/
def execResultLoad (s : State) : Result := issue s fun t => t.setResult t.wordOperand

/-- CRC_UPDATE: RESULT <- Update(TBL, RESULT, CMD_ARG[7:0]) (41_digitcrc.md R128). -/
def execCrcUpdate (s : State) : Result :=
  issueBuilt s fun ix t => t.setResult (update ix.tbl t.result t.byteOperand)

/-- DIGEST: RESULT <- DigestOf(TBL, CMD_ARG, false) (41_digitcrc.md R129). -/
def execDigest (s : State) : Result :=
  issueBuilt s fun ix t => t.setResult (digestOf ix.tbl t.natOperand false)

/-- DIGEST_PAD: RESULT <- DigestOf(TBL, CMD_ARG, true) (41_digitcrc.md R130). -/
def execDigestPad (s : State) : Result :=
  issueBuilt s fun ix t => t.setResult (digestOf ix.tbl t.natOperand true)

end Sys2Proof.Machine
end

