-- ==== Sys2Proof/Machine/RainbowIndex.lean ====
section
/-! DEFINITION. RainbowIndex: the counting sort of the domain's digests, the exact-match lookup and LOOKUP (42_rainbow_index.md). The sort's counters are naturals while it runs (00_scope.md R13) and are narrowed to the arrays' 17 bits at its end. -/

namespace Sys2Proof.Machine

/-- The bucket key of a digest: its upper 16 bits (42_rainbow_index.md R150). -/
def bucketKey (d : Word) : Nat := (d >>> 16).toNat

/-- BKT[k] <- BKT[k] + 1 (42_rainbow_index.md R150). -/
def bump {K : Nat} (bkt : Vector Nat K) (k : Nat) : Vector Nat K := bkt.setIfInBounds k (rd bkt k + 1)

/-- Pass 1: from zero counters, count the key of every n in [0, N) (42_rainbow_index.md R150). -/
def histogram (K N : Nat) (key : Nat → Nat) : Vector Nat K :=
  (List.range N).foldl (fun bkt n => bump bkt (key n)) (Vector.replicate K 0)

/-- The running sum: for k in [1, K), BKT[k] <- BKT[k] + BKT[k-1] (42_rainbow_index.md R151). -/
def runningSum {K : Nat} (bkt : Vector Nat K) : Vector Nat K :=
  (List.range' 1 (K - 1)).foldl (fun b k => b.setIfInBounds k (rd b k + rd b (k - 1))) bkt

/-- The arrays that pass 2 writes (42_rainbow_index.md R152). -/
structure Placement (K N : Nat) where
  bkt : Vector Nat K
  sdig : Vector Word N
  sval : Vector Nat N
deriving DecidableEq, Repr

/-- One placement: decrement the key's slot, store the pair there (42_rainbow_index.md R152). -/
def placeOne {K N : Nat} (dig : Nat → Word) (key : Nat → Nat) (p : Placement K N) (n : Nat) : Placement K N :=
  let slot := rd p.bkt (key n) - 1
  { bkt := p.bkt.setIfInBounds (key n) slot
    sdig := p.sdig.setIfInBounds slot (dig n)
    sval := p.sval.setIfInBounds slot n }

/-- Pass 2: place every n in [0, N), ascending (42_rainbow_index.md R152). -/
def placeAll {K N : Nat} (dig : Nat → Word) (key : Nat → Nat) (ends : Vector Nat K) : Placement K N :=
  (List.range N).foldl (placeOne dig key)
    { bkt := ends, sdig := Vector.replicate N 0#32, sval := Vector.replicate N 0 }

/-- The three passes over a domain [0, N) with K counters (42_rainbow_index.md R150 to R152). -/
def countingSort (K N : Nat) (dig : Nat → Word) (key : Nat → Nat) : Placement K N :=
  placeAll dig key (runningSum (histogram K N key))

/-- DIG: the digest of every domain value (42_rainbow_index.md R150). -/
def domainDigests (tbl : Vector Word 256) : Vector Word Config.domN :=
  Vector.ofFn fun n => digestOf tbl n.val false

/-- The three passes over the domain's digests (42_rainbow_index.md R150 to R152). -/
def placement (dig : Vector Word Config.domN) : Placement Config.bktN Config.domN :=
  countingSort Config.bktN Config.domN (fun n => rd dig n) (fun n => bucketKey (rd dig n))

/-- The arrays that the passes leave, the values and offsets narrowed to their 17 bits (10_state.md R30 to R34). -/
def indexOf (tbl : Vector Word 256) (dig : Vector Word Config.domN) (p : Placement Config.bktN Config.domN) : Index where
  tbl := tbl
  dig := dig
  sdig := p.sdig
  sval := p.sval.map (BitVec.ofNat 17)
  bkt := p.bkt.map (BitVec.ofNat 17)

/-- BuildIndex(tbl): DIG, and the sorted arrays that the three passes leave (42_rainbow_index.md R150 to R153). -/
def buildIndex (tbl : Vector Word 256) : Index :=
  let dig := domainDigests tbl
  indexOf tbl dig (placement dig)

/-- The start offset of bucket k (42_rainbow_index.md R153). -/
def bucketStart (ix : Index) (k : Nat) : Nat := (rd ix.bkt k).toNat

/-- The end offset of bucket k: the start of the next (42_rainbow_index.md R153). -/
def bucketEnd (ix : Index) (k : Nat) : Nat := (rd ix.bkt (k + 1)).toNat

/-- The array offsets of bucket k, ascending (42_rainbow_index.md R157). -/
def bucketRange (ix : Index) (k : Nat) : List Nat :=
  List.range' (bucketStart ix k) (bucketEnd ix k - bucketStart ix k)

/-- LookupSeq(d): the values paired with d in its bucket, in ascending offset (42_rainbow_index.md R157). -/
def lookupSeq (ix : Index) (d : Word) : List Offset :=
  (bucketRange ix (bucketKey d)).filterMap fun j => if rd ix.sdig j = d then some (rd ix.sval j) else none

/-- LookupSeq as FIFO words (10_state.md R27, R44). -/
def lookupWords (ix : Index) (d : Word) : List OutWord := (lookupSeq ix d).map (·.setWidth 30)

/-- LOOKUP, at issue: OPND <- CMD_ARG, the output cleared, PEND <- LookupSeq(OPND), busy
(42_rainbow_index.md R159, 44_engine_control.md R227). -/
def execLookup (s : State) : Result :=
  issueBuilt s fun ix t => (t.latchOpnd t.wordOperand).beginSearch .lookup (lookupWords ix t.wordOperand)

end Sys2Proof.Machine
end

