-- ==== Sys2Proof/Machine/PrefixSearch.lean ====
section
/-! DEFINITION. PrefixSearch: the lenient hexadecimal parse, the candidate sequence, and HASH_RESET, HASH_CHAR, HASH_LOAD and CRACK (43_prefix_search.md). -/

namespace Sys2Proof.Machine

/-- HexVal(c): the digit's value, 0 for a byte outside the alphabet (43_prefix_search.md R180). -/
def hexVal (c : Byte) : Nat :=
  if 0x30 ≤ c.toNat ∧ c.toNat ≤ 0x39 then c.toNat - 0x30
  else if 0x41 ≤ c.toNat ∧ c.toNat ≤ 0x46 then c.toNat - 0x37
  else if 0x61 ≤ c.toNat ∧ c.toNat ≤ 0x66 then c.toNat - 0x57
  else 0

/-- One character into the accumulator: ((HASH_ACC << 4) OR HexVal(c)) mod 2^32 (43_prefix_search.md R181). -/
def hashShift (acc : Word) (c : Byte) : Word := (acc <<< 4) ||| BitVec.ofNat 32 (hexVal c)

/-- The target of a parsed hash: hash XOR 0xFFFFFFFF (43_prefix_search.md R186). -/
def targetOf (hash : Word) : Word := hash ^^^ Config.finalXor

/-- P_i: the prefix register under hypothesis i (43_prefix_search.md R187). -/
def prefixReg (tbl : Vector Word 256) (i : Nat) : Word :=
  (fun r => update tbl r Config.padByte)^[i] Config.pregInit

/-- The high-order prefixes of hypothesis i >= 6, ascending: [10^(i-6), 10^(i-5)) (43_prefix_search.md R190). -/
def highPrefixes (i : Nat) : List Nat := List.range' (10 ^ (i - 6)) (10 ^ (i - 5) - 10 ^ (i - 6))

/-- The candidate of a high-order prefix p and a low-order value v: p * 100000 + v (43_prefix_search.md R190). -/
def candidate (p : Nat) (v : Offset) : OutWord := BitVec.ofNat 30 (p * 100000 + v.toNat)

/-- The candidates of hypothesis i: steps 4b and 4c (43_prefix_search.md R188 to R190). -/
def crackHyp (ix : Index) (target : Word) (i : Nat) : List OutWord :=
  if i < Config.hypSplit then lookupWords ix (target ^^^ prefixReg ix.tbl i)
  else (highPrefixes i).flatMap fun p =>
    (lookupSeq ix (target ^^^ prefixReg ix.tbl i ^^^ digestOf ix.tbl p true)).map (candidate p)

/-- CrackSeq(target): the candidates of hypotheses 1 to 9, in hypothesis order, none removed
(43_prefix_search.md R188, R191). -/
def crackSeq (ix : Index) (target : Word) : List OutWord :=
  (List.range' 1 Config.hypMax).flatMap (crackHyp ix target)

/-- HASH_RESET: HASH_ACC <- 0 (43_prefix_search.md R183). -/
def execHashReset (s : State) : Result := issue s fun t => t.setHashAcc 0#32

/-- HASH_CHAR: feed the character CMD_ARG[7:0] (43_prefix_search.md R184). -/
def execHashChar (s : State) : Result := issue s fun t => t.setHashAcc (hashShift t.hashAcc t.byteOperand)

/-- HASH_LOAD: HASH_ACC <- CMD_ARG (43_prefix_search.md R185). -/
def execHashLoad (s : State) : Result := issue s fun t => t.setHashAcc t.wordOperand

/-- CRACK, at issue: TGT <- HASH_ACC XOR 0xFFFFFFFF, the output cleared, PEND <- CrackSeq(TGT), busy; HASH_ACC stays
(43_prefix_search.md R194, 44_engine_control.md R227). -/
def execCrack (s : State) : Result :=
  issueBuilt s fun ix t =>
    (t.latchTgt (targetOf t.hashAcc)).beginSearch .crack (crackSeq ix (targetOf t.hashAcc))

end Sys2Proof.Machine
end

