-- ==== Sys2Proof/Machine/EngineControl.lean ====
section
/-! DEFINITION. CONSTRUCT and the engine agent's steps (44_engine_control.md). -/

namespace Sys2Proof.Machine

/-- CONSTRUCT, at issue: OPND, POLY <- CMD_ARG, BUILT <- 0, busy (44_engine_control.md R224). -/
def execConstruct (s : State) : Result := issue s fun t => t.beginConstruct t.wordOperand

/-- What a construction with a polynomial leaves: TBL <- TableGen(poly), then BuildIndex (44_engine_control.md R225). -/
def construction (poly : Word) : Index := buildIndex (tableGen poly)

/-- ConstructDone (44_engine_control.md R225), one atomic step as that rule allows (log entry 7). -/
def constructDone (s : State) : State := s.endConstruct (construction s.poly)

/-- The engine's step in a LOOKUP or CRACK: Push while words remain and the FIFO has room, Finish when none remains,
no step while the FIFO is full (44_engine_control.md R226, R228, R230, R232). -/
def searchStep (depth : Nat) (s : State) : Option State :=
  match s.pend with
  | [] => some s.endSearch
  | v :: rest => if s.outq.length < depth then some ((s.setPend rest).push v) else none

/-- The engine's step, none when it has no step enabled (44_engine_control.md R226). -/
def engineStep (depth : Nat) (s : State) : Option State :=
  match s.cur with
  | .none => none
  | .construct => some (constructDone s)
  | .lookup => searchStep depth s
  | .crack => searchStep depth s

end Sys2Proof.Machine
end

