-- ==== Sys2Proof/Machine/Dispatch.lean ====
section
/-! DEFINITION. The meaning of every command: one arm per constructor of Instr, each one direct call. -/

namespace Sys2Proof.Machine

def exec (i : Instr) (s : State) : Host.Outcome State Fault Refusal :=
  match i with
  | .construct => Sys2Proof.Machine.execConstruct s
  | .hashReset => Sys2Proof.Machine.execHashReset s
  | .hashChar => Sys2Proof.Machine.execHashChar s
  | .hashLoad => Sys2Proof.Machine.execHashLoad s
  | .crack => Sys2Proof.Machine.execCrack s
  | .tableRead => Sys2Proof.Machine.execTableRead s
  | .resultLoad => Sys2Proof.Machine.execResultLoad s
  | .crcUpdate => Sys2Proof.Machine.execCrcUpdate s
  | .digest => Sys2Proof.Machine.execDigest s
  | .digestPad => Sys2Proof.Machine.execDigestPad s
  | .lookup => Sys2Proof.Machine.execLookup s

end Sys2Proof.Machine
end

