-- ==== Sys2Proof/Machine/Bus.lean ====
section
/-! DEFINITION. The host agent: the accesses of the register window (20_memory.md R53, R54), the issue of a command (44_engine_control.md R220), the operations of a host program, and the choice of who moves (20_memory.md R61). OUT_DEPTH is an argument here. -/

namespace Sys2Proof.Machine

/-- The word at an offset of the window and the state its read leaves: the pop of OUT_DATA is the only side effect; none
where no register stands (20_memory.md R51 to R54, R57). -/
def readWindow (depth off : Nat) (s : State) : Option (Word × State) :=
  match off with
  | 0x00 => some (0#32, s)
  | 0x04 => some (s.cmdArg, s)
  | 0x08 => some (s.status depth, s)
  | 0x0C => some (s.result, s)
  | 0x10 => some (s.outData, s.pop)
  | 0x14 => some (s.outLevel, s)
  | 0x18 => some (s.hashAcc, s)
  | 0x1C => some (s.poly, s)
  | 0x20 => some (s.candCount, s)
  | _ => none

/-- MemRead(off, size): the word, or a BusFault that changes nothing (20_memory.md R53). -/
def memRead (depth off size : Nat) (s : State) : State :=
  if size = 4 then
    match readWindow depth off s with
    | some (w, t) => t.respond (.data w)
    | none => s.respond .busFault
  else s.respond .busFault

/-- IssueCommand(v): a legal OP word issues its command, whose meaning makes the checks of BUSY and NOT_BUILT; an illegal
one is refused with BUSY when busy and else with ILLEGAL_COMMAND (44_engine_control.md R220, 60_exceptions.md R242). -/
def issueCommand (v : Word) (s : State) : Result :=
  match decode v with
  | .ok i => exec i s
  | .error _ => if s.busy then .next (s.refuse .busy) else .next (s.refuse .illegalCommand)

/-- MemWrite(off, size, v): a command, a new CMD_ARG, nothing for a read-only register, or a BusFault that changes
nothing (20_memory.md R53, R54). -/
def memWrite (off size : Nat) (v : Word) (s : State) : Result :=
  if size = 4 then
    match off with
    | 0x00 => issueCommand v (s.respond .done)
    | 0x04 => .next ((s.setCmdArg v).respond .done)
    | 0x08 | 0x0C | 0x10 | 0x14 | 0x18 | 0x1C | 0x20 => .next (s.respond .done)
    | _ => .next (s.respond .busFault)
  else .next (s.respond .busFault)

/-- A loop operation stays at the head of the host's operations while the word it read has a bit set
(30_encoding.md R90, R91). -/
def loopWhile (bit : Nat) (op : HostOp) (s : State) : State :=
  match s.resp with
  | .data w => if w.getLsbD bit then s.setHostq (op :: s.hostq) else s
  | .none | .done | .busFault => s

/-- One move of the host with an operation already taken from its list. -/
def hostOp (depth : Nat) (op : HostOp) (s : State) : Result :=
  match op with
  | .access (.read off size) => .next (memRead depth off size s)
  | .access (.write off size v) => memWrite off size v s
  | .poll => .next (loopWhile 0 .poll (memRead depth 0x08 4 s))
  | .drain => .next (loopWhile 31 .drain (memRead depth 0x10 4 s))

/-- The host's move, none when it has nothing to do. -/
def hostStep (depth : Nat) (s : State) : Option Result :=
  match s.hostq with
  | [] => none
  | op :: rest => some (hostOp depth op (s.setHostq rest))

/-- The engine's move as an outcome, none when it has no step enabled. -/
def engineMove (depth : Nat) (s : State) : Option Result := (engineStep depth s).map .next

/-- The first of two moves that is enabled; when neither is, the machine waits (70_reset_and_hazards.md R272,
44_engine_control.md R232). -/
def firstOf (a b : Option Result) (s : State) : Result :=
  match a with
  | some r => r
  | none =>
    match b with
    | some r => r
    | none => .next s

/-- The host is preferred. -/
def hostFirst (depth : Nat) (s : State) : Result := firstOf (hostStep depth s) (engineMove depth s) s

/-- The engine is preferred. -/
def engineFirst (depth : Nat) (s : State) : Result := firstOf (engineMove depth s) (hostStep depth s) s

/-- One step of the whole machine with a FIFO of a given depth: the next turn names who moves, and an agent that cannot
move leaves the turn to the other; with no turn left an enabled engine step goes first (20_memory.md R61,
70_reset_and_hazards.md R282; log entry 2). -/
def stepWith (depth : Nat) (s : State) : Result :=
  match s.sched with
  | [] => engineFirst depth s
  | .host :: rest => hostFirst depth (s.setSched rest)
  | .engine :: rest => engineFirst depth (s.setSched rest)
  | .reset :: rest => .next (s.setSched rest).resetCore

/-- The host's next operation becomes the write of `v` to CMD_OP, and the host moves next. -/
def State.issueNext (s : State) (v : Word) : State :=
  (s.setHostq (.access (.write 0x00 4 v) :: s.hostq)).setSched (.host :: s.sched)

end Sys2Proof.Machine
end

