-- ==== Sys2Proof/Machine/Step.lean ====
section
/-! DEFINITION. The step of the machine, and how an OP word is put where the next step takes it up. -/

namespace Sys2Proof.Machine

/-- One step: `stepWith` at this hardware's OUT_DEPTH (00_scope.md R11). -/
def step (s : State) : Host.Outcome State Fault Refusal := stepWith Config.outDepth s

/-- The OP word `w` placed where the next step takes its command: a write of it to CMD_OP at the head of the host's
operations, and the host's turn (log entry 10). -/
def State.withFetchWord (s : State) (nbits w : Nat) : State :=
  s.issueNext (BitVec.ofNat 32 (w % 2 ^ nbits))

end Sys2Proof.Machine
end

