-- ==== Sys2Proof/Machine/Assembler.lean ====
section
/-! DEFINITION. The assembler syntax: the text of a line, the lines it may be, and the host operations each becomes (30_encoding.md R89 to R91; log entries 11 and 15 for what is the model's choice). -/

namespace Sys2Proof.Machine

/-! ### Lines to host operations -/

/-- The commands, in the order of the opcode map (30_encoding.md R84). -/
def allInstrs : List Instr :=
  [.construct, .hashReset, .hashChar, .hashLoad, .crack, .tableRead, .resultLoad, .crcUpdate, .digest, .digestPad,
    .lookup]

/-- A legal operand of a form: none, a number in [0, 256) or a character, a number in [0, 2^32) (30_encoding.md R89).
DESIGN CHOICE (log entry 15): R89's bound of a `byte` operand is kept although program P1 of 95_test_vectors.md has the line
`TABLE_READ 0x1FF`; that line is not legal here, and its accesses are written with `W` lines. -/
def operandLegal : OperandForm → Option AsmOperand → Bool
  | .none, none => true
  | .byte, some (.num n) => decide (n < 256)
  | .byte, some (.chr _) => true
  | .word, some (.num n) => decide (n < 2 ^ 32)
  | _, _ => false

/-- A legal line (30_encoding.md R89). An access line may name any offset: what the bus answers is the bus's affair. -/
def lineLegal : Line → Bool
  | .command i operand => operandLegal (operandForm i) operand
  | .writeReg _ value => decide (value < 2 ^ 32)
  | .crcBytes s0 bs => decide (s0 < 2 ^ 32) && bs.all fun b => operandLegal .byte (some b)
  | .blank | .readReg _ | .poll | .constructDefault | .hash _ | .crackHex _ | .wait | .drain => true

/-- The operand word that is written: zero-extended for a byte form (30_encoding.md R90). -/
def asmWord : AsmOperand → Word
  | .num n => BitVec.ofNat 32 n
  | .chr c => c.setWidth 32

/-- `W off, value` as a host operation. -/
def writeOp (off : Nat) (v : Word) : HostOp := .access (.write off 4 v)

/-- `R off` as a host operation. -/
def readOp (off : Nat) : HostOp := .access (.read off 4)

/-- The writes of `MNEMONIC operand` or `MNEMONIC` (30_encoding.md R90). -/
def commandOps (i : Instr) : Option Word → List HostOp
  | none => [writeOp 0x00 (encode i)]
  | some w => [writeOp 0x04 w, writeOp 0x00 (encode i)]

/-- `HASH "s"`: HASH_RESET, then HASH_CHAR for each byte in order (30_encoding.md R91). -/
def hashOps (s : List Byte) : List HostOp :=
  commandOps .hashReset none ++ s.flatMap fun c => commandOps .hashChar (some (c.setWidth 32))

/-- The host operations a line becomes (30_encoding.md R90, R91). -/
def lineOps : Line → List HostOp
  | .blank => []
  | .command i operand => commandOps i (operand.map asmWord)
  | .writeReg off value => [writeOp off (BitVec.ofNat 32 value)]
  | .readReg off => [readOp off]
  | .poll => [.poll]
  | .constructDefault => commandOps .construct (some Config.defaultPoly)
  | .hash s => hashOps s
  | .crackHex s => hashOps s ++ commandOps .crack none
  | .crcBytes s0 bs =>
    commandOps .resultLoad (some (BitVec.ofNat 32 s0)) ++ bs.flatMap fun b => commandOps .crcUpdate (some (asmWord b))
  | .wait => [.poll, readOp 0x08]
  | .drain => [.drain]

/-- The assembler: the host operations of a program, none if a line of it is not legal (30_encoding.md R89, R90). -/
def assemble (lines : List Line) : Option (List HostOp) :=
  if lines.all lineLegal then some (lines.flatMap lineOps) else none

/-! ### Text to lines -/

/-- A word of a line: plain characters, a character literal, or a string. -/
inductive Token where
  | plain (cs : List Char)
  | chr (c : Byte)
  | str (bs : List Byte)
deriving DecidableEq, Repr

/-- Where the scanner stands: between words, in one, in a string, or in a character literal. -/
inductive ScanState where
  | between
  | inPlain (rev : List Char)
  | inStr (rev : List Byte)
  | afterQuote
  | afterChar (c : Byte)
deriving DecidableEq, Repr

/-- The bytes of a character: its UTF-8 code, one byte for ASCII. -/
def charBytes (c : Char) : List Byte := (String.utf8EncodeChar c).map UInt8.toBitVec

/-- Characters that stand between words. -/
def isSeparator (c : Char) : Bool := c == ' ' || c == ',' || c == '\t'

/-- The words of a line up to its comment; none when a literal is not closed, or when a quote opens directly after a plain
word (30_encoding.md R89). DESIGN CHOICE (log entry 11): a closing quote ends its word, so a word, a literal or a comment may
follow it with no separator, as in `CRC_BYTES 0 'a''b'`. -/
def scanLine : ScanState → List Char → Option (List Token)
  | .between, [] => some []
  | .inPlain rev, [] => some [.plain rev.reverse]
  | _, [] => none
  | .between, c :: cs =>
    if isSeparator c then scanLine .between cs
    else if c == ';' then some []
    else if c == '"' then scanLine (.inStr []) cs
    else if c == '\'' then scanLine .afterQuote cs
    else scanLine (.inPlain [c]) cs
  | .inPlain rev, c :: cs =>
    if isSeparator c then (scanLine .between cs).map (.plain rev.reverse :: ·)
    else if c == ';' then some [.plain rev.reverse]
    else if c == '"' || c == '\'' then none
    else scanLine (.inPlain (c :: rev)) cs
  | .inStr rev, c :: cs =>
    if c == '"' then (scanLine .between cs).map (.str rev.reverse :: ·)
    else scanLine (.inStr ((charBytes c).reverse ++ rev)) cs
  | .afterQuote, c :: cs => if c.toNat < 256 then scanLine (.afterChar (BitVec.ofNat 8 c.toNat)) cs else none
  | .afterChar b, c :: cs => if c == '\'' then (scanLine .between cs).map (.chr b :: ·) else none

/-- The value of a digit in a base, none for a character that is no digit of it. -/
def digitIn (base : Nat) (c : Char) : Option Nat :=
  let v := if c.isDigit then c.toNat - 0x30
    else if 'a' ≤ c ∧ c ≤ 'f' then c.toNat - 0x57
    else if 'A' ≤ c ∧ c ≤ 'F' then c.toNat - 0x37
    else base
  if v < base then some v else none

/-- A number in a base from its digits, most significant first. -/
def numberIn (base : Nat) (cs : List Char) : Option Nat :=
  cs.foldl (fun acc c => acc.bind fun n => (digitIn base c).map (n * base + ·)) (some 0)

/-- A number: hexadecimal after `0x`, else decimal (30_encoding.md R89). -/
def number : List Char → Option Nat
  | [] => none
  | '0' :: 'x' :: c :: cs => numberIn 16 (c :: cs)
  | c :: cs => numberIn 10 (c :: cs)

/-- A written operand (30_encoding.md R89). -/
def operandOf : Token → Option AsmOperand
  | .plain cs => (number cs).map .num
  | .chr c => some (.chr c)
  | .str _ => none

/-- A written number. -/
def numberOf : Token → Option Nat
  | .plain cs => number cs
  | .chr _ | .str _ => none

/-- The mnemonic of a command (30_encoding.md R84). -/
def mnemonic : Instr → String
  | .construct => "CONSTRUCT"
  | .hashReset => "HASH_RESET"
  | .hashChar => "HASH_CHAR"
  | .hashLoad => "HASH_LOAD"
  | .crack => "CRACK"
  | .tableRead => "TABLE_READ"
  | .resultLoad => "RESULT_LOAD"
  | .crcUpdate => "CRC_UPDATE"
  | .digest => "DIGEST"
  | .digestPad => "DIGEST_PAD"
  | .lookup => "LOOKUP"

/-- The command a mnemonic names. -/
def instrNamed (cs : List Char) : Option Instr := allInstrs.find? fun i => (mnemonic i).toList == cs

/-- The line whose first word is a mnemonic: with its operand, or with none (30_encoding.md R89, R91). -/
def commandLine (i : Instr) : List Token → Option Line
  | [] => if i = .construct then some .constructDefault else some (.command i none)
  | [t] => (operandOf t).map fun o => .command i (some o)
  | _ => none

/-- The line that is no command: an access, a poll loop or a pseudo-instruction (30_encoding.md R89, R91). -/
def otherLine (w : List Char) (args : List Token) : Option Line :=
  if w == "W".toList then
    match args with
    | [off, v] => (numberOf off).bind fun a => (numberOf v).map fun b => .writeReg a b
    | _ => none
  else if w == "R".toList then
    match args with
    | [off] => (numberOf off).map .readReg
    | _ => none
  else if w == "HASH".toList then
    match args with
    | [.str s] => some (.hash s)
    | _ => none
  else if w == "CRACK_HEX".toList then
    match args with
    | [.str s] => some (.crackHex s)
    | _ => none
  else if w == "CRC_BYTES".toList then
    match args with
    | s0 :: bs => (numberOf s0).bind fun n => (bs.mapM operandOf).map fun os => .crcBytes n os
    | [] => none
  else if w == "POLL".toList then if args.isEmpty then some .poll else none
  else if w == "WAIT".toList then if args.isEmpty then some .wait else none
  else if w == "DRAIN".toList then if args.isEmpty then some .drain else none
  else none

/-- The line that the words of a line of text are (30_encoding.md R89). -/
def lineOf : List Token → Option Line
  | [] => some .blank
  | .plain w :: args =>
    match instrNamed w with
    | some i => commandLine i args
    | none => otherLine w args
  | _ :: _ => none

/-- A line of text read as an assembler line, none when it is not one. -/
def parseLine (text : List Char) : Option Line := (scanLine .between text).bind lineOf

/-- A program text, one line each, assembled (30_encoding.md R89 to R91). -/
def assembleText (text : List String) : Option (List HostOp) :=
  (text.mapM fun l => parseLine l.toList).bind assemble

end Sys2Proof.Machine
end

