-- ==== Sys2Proof/Machine/CrackLoop.lean ====
section
/-! DEFINITION. The incremental realisation of CRACK that 10_state.md R39 describes: the loop registers TGT, HYP, PREG, PFX, AUX and SCAN at their widths, and one step of the loop of 43_prefix_search.md R188 over them. The machine holds PEND instead, as R39 and 44_engine_control.md R233 allow; that both push the same words is an obligation. -/

namespace Sys2Proof.Machine

/-- The CRACK progress registers (10_state.md R39). -/
structure CrackRegs where
  /-- The target. -/
  tgt : Word
  /-- The hypothesis counter i, 1 to 9. -/
  hyp : BitVec 4
  /-- The prefix register P_i. -/
  preg : Word
  /-- The high-order prefix p, of hypotheses 6 to 9. -/
  pfx : BitVec 14
  /-- DigestOf(TBL, p, true). -/
  aux : Word
  /-- The bucket scan offset. -/
  scan : Offset
deriving DecidableEq, Repr

/-- What one step of the loop does. -/
inductive LoopMove where
  /-- A candidate comes out. -/
  | emit (v : OutWord) (r : CrackRegs)
  /-- The loop goes on and nothing comes out. -/
  | go (r : CrackRegs)
  /-- All nine hypotheses are done. -/
  | done
deriving DecidableEq, Repr

/-- The digest looked up: the target XOR P_i, and XOR AUX from hypothesis 6 on (43_prefix_search.md R188). -/
def CrackRegs.key (r : CrackRegs) : Word :=
  if r.hyp.toNat < Config.hypSplit then r.tgt ^^^ r.preg else r.tgt ^^^ r.preg ^^^ r.aux

/-- SCAN <- the start of the key's bucket. -/
def enterBucket (ix : Index) (r : CrackRegs) : CrackRegs := { r with scan := rd ix.bkt (bucketKey r.key) }

/-- PFX <- p, AUX <- DigestOf(TBL, p, true), and the scan starts again (43_prefix_search.md R188 step 4c). -/
def enterPrefix (ix : Index) (p : Nat) (r : CrackRegs) : CrackRegs :=
  enterBucket ix { r with pfx := BitVec.ofNat 14 p, aux := digestOf ix.tbl p true }

/-- HYP <- i, PREG advanced by one Update with 0x30, and the hypothesis begins (43_prefix_search.md R188 step 4a). -/
def enterHyp (ix : Index) (i : Nat) (r : CrackRegs) : CrackRegs :=
  let r1 := { r with hyp := BitVec.ofNat 4 i, preg := update ix.tbl r.preg Config.padByte }
  if i < Config.hypSplit then enterBucket ix r1 else enterPrefix ix (10 ^ (i - 6)) r1

/-- The registers at the start of a CRACK with a target: hypothesis 1 begins. The values of PFX and AUX are those of no
prefix yet, and nothing reads them before hypothesis 6. -/
def loopStart (ix : Index) (target : Word) : CrackRegs :=
  enterHyp ix 1 { tgt := target, hyp := 0#4, preg := Config.pregInit, pfx := 0#14, aux := 0#32, scan := 0#17 }

/-- The candidate at the scan offset (43_prefix_search.md R189, R190). -/
def CrackRegs.found (ix : Index) (r : CrackRegs) : OutWord :=
  if r.hyp.toNat < Config.hypSplit then (rd ix.sval r.scan.toNat).setWidth 30
  else candidate r.pfx.toNat (rd ix.sval r.scan.toNat)

/-- When a bucket is exhausted: the next prefix, else the next hypothesis, else the end. -/
def loopNext (ix : Index) (r : CrackRegs) : LoopMove :=
  if Config.hypSplit ≤ r.hyp.toNat ∧ r.pfx.toNat + 1 < 10 ^ (r.hyp.toNat - 5) then
    .go (enterPrefix ix (r.pfx.toNat + 1) r)
  else if r.hyp.toNat < Config.hypMax then .go (enterHyp ix (r.hyp.toNat + 1) r)
  else .done

/-- One step of the loop: examine the pair at SCAN, or move on when the bucket is exhausted. -/
def loopStep (ix : Index) (r : CrackRegs) : LoopMove :=
  if r.scan.toNat < bucketEnd ix (bucketKey r.key) then
    let r1 := { r with scan := r.scan + 1#17 }
    if rd ix.sdig r.scan.toNat = r.key then .emit (r.found ix) r1 else .go r1
  else loopNext ix r

/-- The words that come out of the loop while fuel lasts, none when the fuel did not reach the end. -/
def loopWords (ix : Index) : Nat → CrackRegs → Option (List OutWord)
  | 0, _ => none
  | fuel + 1, r =>
    match loopStep ix r with
    | .emit v r' => (loopWords ix fuel r').map (v :: ·)
    | .go r' => loopWords ix fuel r'
    | .done => some []

end Sys2Proof.Machine
end

