-- ==== Sys2Proof/Safety.lean ====
section
/-! DEFINITION. What claims about runs are stated in: the invariant of the reachable states, the end of a run, and the hold on a full FIFO. -/

namespace Sys2Proof.Machine

/-- The words the search in progress has to push in all: LookupSeq(OPND) or CrackSeq(TGT) (44_engine_control.md R227, R230);
none when no search is in progress. -/
def State.searchOutput (s : State) : Option (List OutWord) :=
  match s.cur, s.index with
  | .lookup, some ix => some (lookupWords ix s.opnd)
  | .crack, some ix => some (crackSeq ix s.tgt)
  | _, _ => none

/-- Whether CUR is LOOKUP or CRACK. -/
def State.searching (s : State) : Bool :=
  match s.cur with
  | .lookup | .crack => true
  | .none | .construct => false

/-- The engine holds: a search has words left and the FIFO is full (44_engine_control.md R232). -/
def State.held (depth : Nat) (s : State) : Prop :=
  s.searching = true ∧ s.pend ≠ [] ∧ s.outq.length = depth

/-- A run has ended: the host has performed its last access and CUR = NONE (70_reset_and_hazards.md R283). -/
def State.ended (s : State) : Prop := s.hostq = [] ∧ s.cur = .none

/-- What holds of every state a run reaches. -/
structure Inv (s : State) : Prop where
  /-- The FIFO never overflows (10_state.md R37, 44_engine_control.md R229). -/
  fifoBounded : s.outq.length ≤ Config.outDepth
  /-- OUT_LEVEL never exceeds CAND_COUNT (44_engine_control.md R227, R229). -/
  levelCounted : s.outq.length ≤ s.candCount.toNat
  /-- PEND holds words only during a search (10_state.md R38). -/
  pendOnlyInSearch : s.searching = false → s.pend = []
  /-- During a CONSTRUCT the arrays are not built (44_engine_control.md R224). -/
  constructUnbuilt : s.cur = .construct → s.index = none
  /-- During a CONSTRUCT, OPND is the polynomial (44_engine_control.md R224). -/
  constructOperand : s.cur = .construct → s.opnd = s.poly
  /-- A search runs only on built arrays (60_exceptions.md R245). -/
  searchBuilt : s.searching = true → s.built = true
  /-- Built arrays are those of POLY (10_state.md R35). -/
  builtForPoly : ∀ ix, s.index = some ix → ix = construction s.poly
  /-- What the search in progress has pushed and popped, what is in the FIFO and what is pending are its output in order,
  and CAND_COUNT counts the pushes (10_state.md R36, 44_engine_control.md R228, R229). -/
  searchProgress : ∀ out, s.searchOutput = some out →
    ∃ popped, out = popped ++ s.outq ++ s.pend ∧ s.candCount.toNat = popped.length + s.outq.length
  /-- Every FIFO word is below 10^9 (10_state.md R27, 43_prefix_search.md R193). -/
  wordsBelow : ∀ v ∈ s.outq ++ s.pend, v.toNat < Config.candLimit

end Sys2Proof.Machine
end

