-- ==== Sys2Proof/Certificates/Slice0/Obligations.lean ====
section
/-! DEFINITION. The statements about the model, for the provers. A step premise `s.sched.head? ≠ some .reset` says that the move is not the reset input's. -/

open Sys2Proof Sys2Proof.Machine

/-! ### Encoding -/

/-- The opcode map, row by row: OP word, command, operand form, kind, needs BUILT; and words that are no command. -/
def Obligations.OpcodeMapRowByRow : Prop :=
  (∀ row ∈ ([(0x00000001#32, .construct, .word, true, false), (0x00000002#32, .hashReset, .none, false, false),
      (0x00000003#32, .hashChar, .byte, false, false), (0x00000004#32, .hashLoad, .word, false, false),
      (0x00000005#32, .crack, .none, true, true), (0x00000010#32, .tableRead, .byte, false, true),
      (0x00000011#32, .resultLoad, .word, false, false), (0x00000012#32, .crcUpdate, .byte, false, true),
      (0x00000013#32, .digest, .word, false, true), (0x00000014#32, .digestPad, .word, false, true),
      (0x00000015#32, .lookup, .word, true, true)] : List (Word × Instr × OperandForm × Bool × Bool)),
    decode row.1 = .ok row.2.1 ∧ encode row.2.1 = row.1 ∧ operandForm row.2.1 = row.2.2.1 ∧
      isLong row.2.1 = row.2.2.2.1 ∧ needsBuilt row.2.1 = row.2.2.2.2) ∧
  (∀ b : Byte, b ∉ ([0x01#8, 0x02#8, 0x03#8, 0x04#8, 0x05#8, 0x10#8, 0x11#8, 0x12#8, 0x13#8, 0x14#8, 0x15#8] :
      List Byte) →
    decode (b.setWidth 32) = .error (.reservedOpcode b)) ∧
  decode 0x00000105#32 = .error (.reservedBits 1#24)

/-- Every 32-bit OP word decodes to exactly one of the eleven commands or to ILLEGAL, and decoding and encoding agree in
both directions. -/
def Obligations.DecodeEncodeAgreeOnAllWords : Prop :=
  (∀ i, decode (encode i) = .ok i) ∧
  (∀ v i, decode v = .ok i → v = encode i) ∧
  (∀ v, (∃ i, decode v = .ok i) ↔ (v.extractLsb' 8 24 = 0#24 ∧ v.extractLsb' 0 8 ∈ opcodes)) ∧
  (∀ v, (∃ e, decode v = .error e) ↔ ¬(v.extractLsb' 8 24 = 0#24 ∧ v.extractLsb' 0 8 ∈ opcodes))

/-! ### Issue and refusal -/

/-- A CMD_OP write reports exactly one code, the first that applies of BUSY, ILLEGAL_COMMAND, NOT_BUILT, writes nothing
else when it refuses, and otherwise issues the command. -/
def Obligations.CommandWriteChecksInOrder : Prop :=
  ∀ (depth : Nat) (v : Word) (s : State),
    (s.cur ≠ .none →
      hostOp depth (.access (.write 0x00 4 v)) s = .next { s with resp := .done, err := .busy }) ∧
    (s.cur = .none → ¬(v.extractLsb' 8 24 = 0#24 ∧ v.extractLsb' 0 8 ∈ opcodes) →
      hostOp depth (.access (.write 0x00 4 v)) s = .next { s with resp := .done, err := .illegalCommand }) ∧
    (∀ i, s.cur = .none → v = encode i →
      i ∈ ([.tableRead, .crcUpdate, .digest, .digestPad, .lookup, .crack] : List Instr) → s.index = none →
      hostOp depth (.access (.write 0x00 4 v)) s = .next { s with resp := .done, err := .notBuilt }) ∧
    (∀ i, s.cur = .none → v = encode i →
      (i ∈ ([.construct, .hashReset, .hashChar, .hashLoad, .resultLoad] : List Instr) ∨ s.index ≠ none) →
      ∃ t, hostOp depth (.access (.write 0x00 4 v)) s = .next t ∧ t.err = .none ∧
        exec i { s with resp := .done } = .next t)

/-- A read of STATUS right after a CMD_OP write shows the code of that write. -/
def Obligations.StatusReadShowsLastCommandCode : Prop :=
  ∀ (s : State) (v : Word) (rest : List HostOp) (ts : List Turn),
    s.hostq = .access (.write 0x00 4 v) :: .access (.read 0x08 4) :: rest → s.sched = .host :: .host :: ts →
    ∃ t u w, step s = .next t ∧ step t = .next u ∧ u.resp = .data w ∧
      (s.cur ≠ .none → w.extractLsb' 2 3 = 2#3) ∧
      (s.cur = .none → ¬(v.extractLsb' 8 24 = 0#24 ∧ v.extractLsb' 0 8 ∈ opcodes) → w.extractLsb' 2 3 = 1#3) ∧
      (∀ i, s.cur = .none → v = encode i → needsBuilt i = true → s.index = none → w.extractLsb' 2 3 = 3#3) ∧
      (∀ i, s.cur = .none → v = encode i → (needsBuilt i = true → s.index ≠ none) → w.extractLsb' 2 3 = 0#3)

/-- CMD_ARG bits outside a command's operand form have no effect: any CMD_ARG for the form `none`, any with the same low
byte for the form `byte`. -/
def Obligations.UnusedOperandBitsHaveNoEffect : Prop :=
  ∀ (i : Instr) (s : State) (w : Word),
    ((i = .hashReset ∨ i = .crack) ∨
      ((i = .hashChar ∨ i = .tableRead ∨ i = .crcUpdate) ∧ w.extractLsb' 0 8 = s.cmdArg.extractLsb' 0 8)) →
    ∃ t, exec i s = .next t ∧ exec i { s with cmdArg := w } = .next { t with cmdArg := w }

/-! ### The step -/

/-- When the host moves and its next operation writes an OP word that decodes to a command, the step is that command's
meaning, with the write taken from the host's operations, the turn taken, and the bus answering done. Who moves is plain
data, the model's choice (log entries 2 and 5). -/
def Obligations.StepRunsDecodedCommand : Prop :=
  ∀ (s : State) (v : Word) (i : Instr) (rest : List HostOp),
    s.hostq = .access (.write 0x00 4 v) :: rest →
    (s.sched.head? = some .host ∨ (s.sched.head? ≠ some .reset ∧ engineStep Config.outDepth s = none)) →
    decode v = .ok i →
    step s = exec i { s with hostq := rest, sched := s.sched.tail, resp := .done }

/-- From every state, the OP word that withFetchWord places is the command that the next step runs (the model's own
placement, log entry 10). -/
def Obligations.PlacedWordRunsNext : Prop :=
  ∀ (s : State) (i : Instr),
    decodeTableWord 32 (encode i).toNat = some i ∧
      step (s.withFetchWord 32 (encode i).toNat) = exec i { s with resp := .done }

/-- The host's turn performs its next operation, and so does any turn but reset's while the engine has no step (the
model's choice, log entry 2). -/
def Obligations.HostTurnPerformsNextOperation : Prop :=
  ∀ (s : State) (op : HostOp) (rest : List HostOp),
    s.hostq = op :: rest →
    (s.sched.head? = some .host ∨ (s.sched.head? ≠ some .reset ∧ engineStep Config.outDepth s = none)) →
    step s = hostOp Config.outDepth op { s with hostq := rest, sched := s.sched.tail }

/-- The engine's turn takes its step, and so does any turn but reset's while the host has nothing to do. With no turn
left the engine goes first (the model's choice, log entry 2). -/
def Obligations.EngineTurnTakesItsStep : Prop :=
  ∀ s t : State,
    engineStep Config.outDepth s = some t →
    (s.sched = [] ∨ s.sched.head? = some .engine ∨ (s.sched.head? = some .host ∧ s.hostq = [])) →
    step s = .next { t with sched := s.sched.tail }

/-- With nothing for the host to do and no engine step enabled, the machine waits unchanged (the model's choice,
log entry 2). -/
def Obligations.NothingEnabledWaits : Prop :=
  ∀ s : State, s.hostq = [] → engineStep Config.outDepth s = none → s.sched.head? ≠ some .reset →
    step s = .next { s with sched := s.sched.tail }

/-- No step ends in a fault or in a refusal of the model: every step has a next state (a BusFault is one, log entry 5). -/
def Obligations.EveryStepHasNextState : Prop := ∀ s : State, ∃ t, step s = .next t

/-! ### Reset -/

/-- The values that the spec gives the state after reset. -/
def Obligations.ResetLeavesSpecifiedValues : Prop :=
  State.reset.cmdArg = 0xEDB88320#32 ∧ (∀ depth, 0 < depth → State.reset.status depth = 0#32) ∧
  State.reset.result = 0#32 ∧ State.reset.outData = 0#32 ∧ State.reset.outLevel = 0#32 ∧
  State.reset.hashAcc = 0#32 ∧ State.reset.poly = 0#32 ∧ State.reset.candCount = 0#32 ∧ State.reset.outq = [] ∧
  State.reset.cur = .none ∧ State.reset.opnd = 0#32 ∧ State.reset.pend = [] ∧
  (∀ depth, hostOp depth (.access (.read 0x00 4)) State.reset = .next { State.reset with resp := .data 0#32 })

/-- A reset turn takes the CORE to its reset state from every state, a command in progress included; what the host has
still to do is outside the CORE (log entry 2). Two clauses are the model's choice: TGT is 0 after reset, where the spec
leaves it unspecified (log entry 6), and no answer stands on the bus (log entry 5). -/
def Obligations.ResetFromEveryState : Prop :=
  ∀ (s : State) (ts : List Turn), s.sched = .reset :: ts →
    step s = .next { State.reset with hostq := s.hostq, sched := ts }

/-! ### PolyTable -/

/-- TABLE_READ, whole: its word, its refusals, its effect and all it leaves unchanged, its corner cases, its example. -/
def Obligations.TableReadCopiesEntryToResult : Prop :=
  decode 0x00000010#32 = .ok .tableRead ∧
  (∀ s : State, s.cur ≠ .none → exec .tableRead s = .next { s with err := .busy }) ∧
  (∀ s : State, s.cur = .none → s.index = none → exec .tableRead s = .next { s with err := .notBuilt }) ∧
  (∀ (s : State) (ix : Index), s.cur = .none → s.index = some ix →
    exec .tableRead s = .next { s with err := .none, result := tblAt ix.tbl (s.cmdArg.extractLsb' 0 8) }) ∧
  (0x00000100#32).extractLsb' 0 8 = 0x00#8 ∧
  (∀ poly, tblAt (tableGen poly) 0x00#8 = 0#32 ∧ tblAt (tableGen poly) 0x80#8 = poly) ∧
  tblAt (tableGen 0xEDB88320#32) 0x01#8 = 0x77073096#32

/-- The properties (a) to (e) of a generated table, for every polynomial. -/
def Obligations.GeneratedTableIsLinear : Prop :=
  (∀ poly, tblAt (tableGen poly) 0x00#8 = 0#32) ∧
  (∀ poly, tblAt (tableGen poly) 0x80#8 = poly) ∧
  (∀ poly (a b : Byte), tblAt (tableGen poly) (a ^^^ b) = tblAt (tableGen poly) a ^^^ tblAt (tableGen poly) b) ∧
  (∀ poly (b : Byte), tblAt (tableGen poly) b =
    (List.range 8).foldl (fun acc k => if b.getLsbD k then acc ^^^ tblAt (tableGen poly) (1#8 <<< k) else acc) 0#32) ∧
  (∀ b : Byte, tblAt (tableGen 0#32) b = 0#32)

/-- The default polynomial's entries that the spec prints beside the rule. -/
def Obligations.DefaultTableEntries : Prop :=
  tblAt (tableGen 0xEDB88320#32) 0x01#8 = 0x77073096#32 ∧ tblAt (tableGen 0xEDB88320#32) 0x02#8 = 0xEE0E612C#32 ∧
  tblAt (tableGen 0xEDB88320#32) 0x80#8 = 0xEDB88320#32 ∧ tblAt (tableGen 0xEDB88320#32) 0xFF#8 = 0x2D02EF8D#32

/-! ### DigitCrc -/

/-- Update, in the rule's own arithmetic on the table index. -/
def Obligations.UpdateTransition : Prop :=
  ∀ (tbl : Vector Word 256) (s : Word) (b : Byte),
    update tbl s b = rd tbl ((s ^^^ b.setWidth 32) &&& 0xFF#32).toNat ^^^ (s >>> 8)

/-- Digits(n): the recursion, digit range, no leading zero, and the count of decimal digits. -/
def Obligations.DigitsAreTheDecimalDigits : Prop :=
  digits 0 = [] ∧ (∀ n, 0 < n → digits n = digits (n / 10) ++ [n % 10]) ∧ (∀ n, ∀ d ∈ digits n, d ≤ 9) ∧
  (∀ n, (digits n).head? ≠ some 0) ∧
  (∀ n, 0 < n → 10 ^ ((digits n).length - 1) ≤ n ∧ n < 10 ^ (digits n).length)

/-- Update is linear in state and byte for every generated table, and so is feeding sequences of equal length. -/
def Obligations.FeedingIsLinear : Prop :=
  ∀ poly : Word,
    (∀ (s1 s2 : Word) (b1 b2 : Byte), update (tableGen poly) (s1 ^^^ s2) (b1 ^^^ b2) =
      update (tableGen poly) s1 b1 ^^^ update (tableGen poly) s2 b2) ∧
    (∀ (s : Word) (b c : List Byte), b.length = c.length →
      feed (tableGen poly) s (List.zipWith (· ^^^ ·) b c) =
        feed (tableGen poly) s b ^^^ feed (tableGen poly) 0#32 c) ∧
    (∀ (s : Word) (b : List Byte), feed (tableGen poly) s b =
      feed (tableGen poly) s (List.replicate b.length 0#8) ^^^ feed (tableGen poly) 0#32 b)

/-- The properties (a) to (d) of DigestOf for every generated table. -/
def Obligations.DigestProperties : Prop :=
  ∀ poly : Word,
    digestOf (tableGen poly) 0 false = 0#32 ∧ digestOf (tableGen poly) 0 true = 0#32 ∧
    (∀ n k, feed (tableGen poly) 0#32 (List.replicate k 0#8 ++ (digits n).map digitByte) =
      digestOf (tableGen poly) n false) ∧
    (∀ n, digestOf (tableGen poly) n true = digestOf (tableGen poly) (n * 100000) false) ∧
    (∀ p v, 0 < p → v < 100000 → digestOf (tableGen poly) (p * 100000 + v) false =
      digestOf (tableGen poly) p true ^^^ digestOf (tableGen poly) v false)

/-- The register after the L-character decimal text of n, fed from all ones, is P_L XOR DigestOf(n). -/
def Obligations.TextRegisterIsPrefixXorDigest : Prop :=
  ∀ (poly : Word) (L n : Nat), n < 10 ^ L →
    feed (tableGen poly) 0xFFFFFFFF#32
        ((List.replicate (L - (digits n).length) 0 ++ digits n).map fun d => 0x30#8 ^^^ digitByte d) =
      prefixReg (tableGen poly) L ^^^ digestOf (tableGen poly) n false

/-- RESULT_LOAD, whole. -/
def Obligations.ResultLoadWritesResult : Prop :=
  decode 0x00000011#32 = .ok .resultLoad ∧
  (∀ s : State, s.cur ≠ .none → exec .resultLoad s = .next { s with err := .busy }) ∧
  (∀ s : State, s.cur = .none → exec .resultLoad s = .next { s with err := .none, result := s.cmdArg })

/-- CRC_UPDATE, whole: its word, its refusals, its effect and all it leaves unchanged, its corner cases, its example. -/
def Obligations.CrcUpdateAdvancesResult : Prop :=
  decode 0x00000012#32 = .ok .crcUpdate ∧
  (∀ s : State, s.cur ≠ .none → exec .crcUpdate s = .next { s with err := .busy }) ∧
  (∀ s : State, s.cur = .none → s.index = none → exec .crcUpdate s = .next { s with err := .notBuilt }) ∧
  (∀ (s : State) (ix : Index), s.cur = .none → s.index = some ix →
    exec .crcUpdate s = .next { s with err := .none, result := update ix.tbl s.result (s.cmdArg.extractLsb' 0 8) }) ∧
  (∀ poly, update (tableGen poly) 0#32 0x00#8 = 0#32) ∧
  (0x00000130#32).extractLsb' 0 8 = 0x30#8 ∧
  update (tableGen 0xEDB88320#32) 0xFFFFFFFF#32 0x30#8 = 0x0B2420DE#32 ∧
  prefixReg (tableGen 0xEDB88320#32) 1 = 0x0B2420DE#32

/-- DIGEST, whole: its word, its refusals, its effect and all it leaves unchanged, its corner cases, its examples. -/
def Obligations.DigestWritesResult : Prop :=
  decode 0x00000013#32 = .ok .digest ∧
  (∀ s : State, s.cur ≠ .none → exec .digest s = .next { s with err := .busy }) ∧
  (∀ s : State, s.cur = .none → s.index = none → exec .digest s = .next { s with err := .notBuilt }) ∧
  (∀ (s : State) (ix : Index), s.cur = .none → s.index = some ix →
    exec .digest s = .next { s with err := .none, result := digestOf ix.tbl s.cmdArg.toNat false }) ∧
  (∀ tbl, digestOf tbl 0 false = 0#32) ∧ (digits 4294967295).length = 10 ∧
  digestOf (tableGen 0xEDB88320#32) 12345 false = 0x81296EE9#32 ∧
  digestOf (tableGen 0xEDB88320#32) 1 false = 0x77073096#32

/-- DIGEST_PAD, whole: its word, its refusals, its effect and all it leaves unchanged, its corner cases, its example. -/
def Obligations.DigestPadWritesResult : Prop :=
  decode 0x00000014#32 = .ok .digestPad ∧
  (∀ s : State, s.cur ≠ .none → exec .digestPad s = .next { s with err := .busy }) ∧
  (∀ s : State, s.cur = .none → s.index = none → exec .digestPad s = .next { s with err := .notBuilt }) ∧
  (∀ (s : State) (ix : Index), s.cur = .none → s.index = some ix →
    exec .digestPad s = .next { s with err := .none, result := digestOf ix.tbl s.cmdArg.toNat true }) ∧
  (∀ poly, digestOf (tableGen poly) 0 true = 0#32) ∧
  (∀ poly n, 0 < n → n * 100000 < 2 ^ 32 →
    digestOf (tableGen poly) n true = digestOf (tableGen poly) (n * 100000) false) ∧
  digestOf (tableGen 0xEDB88320#32) 1 true = 0xCB5CD3A5#32

/-! ### RainbowIndex -/

/-- The index whenever BUILT = 1: bucket offsets run from 0 to 100000 without falling; a bucket's pairs are exactly the
domain entries of its key; the buckets partition the array; SDIG[j] = DIG[SVAL[j]] and SVAL is a permutation of the domain;
within a bucket values descend. -/
def Obligations.BuiltIndexIsSortedPartition : Prop :=
  ∀ (s : State) (ix : Index), Inv s → s.index = some ix →
    (bucketStart ix 0 = 0 ∧ bucketStart ix 65536 = 100000 ∧
      ∀ k, k < 65536 → bucketStart ix k ≤ bucketEnd ix k ∧
        bucketEnd ix k = bucketStart ix (k + 1)) ∧
    (∀ k n, k < 65536 → n < 100000 →
      ((∃ j, bucketStart ix k ≤ j ∧ j < bucketEnd ix k ∧
          (rd ix.sval j).toNat = n ∧
          rd ix.sdig j = digestOf (tableGen s.poly) n false) ↔
        bucketKey (digestOf (tableGen s.poly) n false) = k)) ∧
    (∀ j k, j < 100000 → k < 65536 →
      ((bucketStart ix k ≤ j ∧ j < bucketEnd ix k) ↔
        bucketKey (rd ix.sdig j) = k)) ∧
    (∀ j, j < 100000 → rd ix.sdig j =
      rd ix.dig (rd ix.sval j).toNat) ∧
    ((List.range 100000).map fun j => (rd ix.sval j).toNat).Perm (List.range 100000) ∧
    (∀ k i j, k < 65536 → bucketStart ix k ≤ i → i < j → j < bucketEnd ix k →
      (rd ix.sval j).toNat < (rd ix.sval i).toNat)

/-- LookupSeq on a built index: exactly the domain values with that digest, each once, in descending order; and it reads
SDIG, SVAL and BKT only. -/
def Obligations.LookupFindsExactlyThePreimages : Prop :=
  (∀ (poly d : Word) (v : Offset), v ∈ lookupSeq (construction poly) d ↔
    v.toNat < 100000 ∧ digestOf (tableGen poly) v.toNat false = d) ∧
  (∀ poly d : Word, (lookupSeq (construction poly) d).Pairwise fun v w => w.toNat < v.toNat) ∧
  (∀ (ix ix' : Index) (d : Word), ix.sdig = ix'.sdig → ix.sval = ix'.sval → ix.bkt = ix'.bkt →
    lookupSeq ix d = lookupSeq ix' d)

/-- With the polynomial 0 every table entry and digest is 0, all entries stand in bucket 0 and SVAL descends. -/
def Obligations.ZeroPolynomialIndex : Prop :=
  (∀ b : Byte, tblAt (tableGen 0#32) b = 0#32) ∧ (∀ n, digestOf (tableGen 0#32) n false = 0#32) ∧
  bucketStart (construction 0#32) 0 = 0 ∧
  (∀ k, 1 ≤ k → k < 65537 → bucketStart (construction 0#32) k = 100000) ∧
  (∀ j, j < 100000 → (rd (construction 0#32).sval j).toNat = 99999 - j)

/-- The issue of LOOKUP and of CRACK: refused with nothing else written, or the output cleared, the whole output sequence
in PEND, OPND or TGT latched, busy, and everything else (HASH_ACC, POLY, the arrays) unchanged. -/
def Obligations.SearchIssueFillsPend : Prop :=
  decode 0x00000015#32 = .ok .lookup ∧ decode 0x00000005#32 = .ok .crack ∧
  (∀ s : State, s.cur ≠ .none → exec .lookup s = .next { s with err := .busy }) ∧
  (∀ s : State, s.cur ≠ .none → exec .crack s = .next { s with err := .busy }) ∧
  (∀ s : State, s.cur = .none → s.index = none → exec .lookup s = .next { s with err := .notBuilt }) ∧
  (∀ s : State, s.cur = .none → s.index = none → exec .crack s = .next { s with err := .notBuilt }) ∧
  (∀ (s : State) (ix : Index), s.cur = .none → s.index = some ix →
    exec .lookup s = .next { s with
      err := .none, outq := [], candCount := 0#32, opnd := s.cmdArg,
      pend := (lookupSeq ix s.cmdArg).map (·.setWidth 30), cur := .lookup }) ∧
  (∀ (s : State) (ix : Index), s.cur = .none → s.index = some ix →
    exec .crack s = .next { s with
      err := .none, outq := [], candCount := 0#32, tgt := s.hashAcc ^^^ 0xFFFFFFFF#32,
      pend := crackSeq ix (s.hashAcc ^^^ 0xFFFFFFFF#32), cur := .crack })

/-! ### PrefixSearch -/

/-- HexVal: digits, upper case, lower case, and 0 for every other byte. -/
def Obligations.HexDigitValues : Prop :=
  ∀ c : Byte,
    (0x30 ≤ c.toNat ∧ c.toNat ≤ 0x39 → hexVal c = c.toNat - 0x30) ∧
    (0x41 ≤ c.toNat ∧ c.toNat ≤ 0x46 → hexVal c = c.toNat - 0x37) ∧
    (0x61 ≤ c.toNat ∧ c.toNat ≤ 0x66 → hexVal c = c.toNat - 0x57) ∧
    (¬(0x30 ≤ c.toNat ∧ c.toNat ≤ 0x39) → ¬(0x41 ≤ c.toNat ∧ c.toNat ≤ 0x46) →
      ¬(0x61 ≤ c.toNat ∧ c.toNat ≤ 0x66) → hexVal c = 0)

/-- One character shifts in one digit modulo 2^32, and from a clear accumulator a string parses to the sum of its digits'
weights modulo 2^32. -/
def Obligations.HashStringParsesModuloWord : Prop :=
  (∀ (acc : Word) (c : Byte), (hashShift acc c).toNat = ((acc.toNat <<< 4) ||| hexVal c) % 2 ^ 32) ∧
  (∀ cs : List Byte, (cs.foldl hashShift 0#32).toNat = Nat.ofDigits 16 (cs.reverse.map hexVal) % 2 ^ 32)

/-- HASH_RESET, whole. -/
def Obligations.HashResetClearsAccumulator : Prop :=
  decode 0x00000002#32 = .ok .hashReset ∧
  (∀ s : State, s.cur ≠ .none → exec .hashReset s = .next { s with err := .busy }) ∧
  (∀ s : State, s.cur = .none → exec .hashReset s = .next { s with err := .none, hashAcc := 0#32 }) ∧
  targetOf 0#32 = 0xFFFFFFFF#32

/-- HASH_CHAR, whole: its word, its refusal, its effect and all it leaves unchanged, a byte outside the alphabet, its
example. -/
def Obligations.HashCharShiftsInDigit : Prop :=
  decode 0x00000003#32 = .ok .hashChar ∧
  (∀ s : State, s.cur ≠ .none → exec .hashChar s = .next { s with err := .busy }) ∧
  (∀ s : State, s.cur = .none → exec .hashChar s = .next { s with
    err := .none,
    hashAcc := (s.hashAcc <<< 4) ||| BitVec.ofNat 32 (hexVal (s.cmdArg.extractLsb' 0 8)) }) ∧
  (∀ (acc : Word) (c : Byte), hexVal c = 0 → hashShift acc c = acc <<< 4) ∧
  hashShift 0x0CBF4392#32 0x36#8 = 0xCBF43926#32

/-- HASH_LOAD, whole: its word, its refusal, its effect and all it leaves unchanged, and that the eight lower-case digits
of a word parse to it. -/
def Obligations.HashLoadEqualsEightDigits : Prop :=
  decode 0x00000004#32 = .ok .hashLoad ∧
  (∀ s : State, s.cur ≠ .none → exec .hashLoad s = .next { s with err := .busy }) ∧
  (∀ s : State, s.cur = .none → exec .hashLoad s = .next { s with err := .none, hashAcc := s.cmdArg }) ∧
  (∀ w : Word, ((List.range 8).map fun k =>
      BitVec.ofNat 8 (if (w.toNat / 16 ^ (7 - k)) % 16 < 10 then 0x30 + (w.toNat / 16 ^ (7 - k)) % 16
        else 0x57 + (w.toNat / 16 ^ (7 - k)) % 16)).foldl hashShift 0#32 = w)

/-- The prefix registers and the candidate sequence: P_0, the update that gives P_i from P_(i-1), the printed values, the
lookup of each hypothesis with its P_i, the prefixes of the long hypotheses ascending, and hypotheses 1 to 9 in order. -/
def Obligations.CrackSeqFollowsTheHypotheses : Prop :=
  (∀ tbl, prefixReg tbl 0 = 0xFFFFFFFF#32) ∧
  (∀ tbl i, prefixReg tbl (i + 1) = update tbl (prefixReg tbl i) 0x30#8) ∧
  (List.range' 1 9).map (prefixReg (tableGen 0xEDB88320#32)) =
    [0x0B2420DE#32, 0x47B9EB5F#32, 0xDD4AC522#32, 0xF3643B8D#32, 0xB523AB0A#32, 0xC6B9FA19#32, 0x42742196#32,
      0x3FF772FC#32, 0x92ED79E9#32] ∧
  (∀ i, prefixReg (tableGen 0#32) i = 0xFFFFFFFF#32 >>> (8 * i)) ∧
  (∀ ix target i, i < 6 →
    crackHyp ix target i = (lookupSeq ix (target ^^^ prefixReg ix.tbl i)).map (·.setWidth 30)) ∧
  (∀ ix target i, 6 ≤ i →
    crackHyp ix target i = (List.range' (10 ^ (i - 6)) (10 ^ (i - 5) - 10 ^ (i - 6))).flatMap fun p =>
      (lookupSeq ix (target ^^^ prefixReg ix.tbl i ^^^ digestOf ix.tbl p true)).map fun v =>
        BitVec.ofNat 30 (p * 100000 + v.toNat)) ∧
  (∀ ix target, crackSeq ix target = crackHyp ix target 1 ++ crackHyp ix target 2 ++ crackHyp ix target 3 ++
    crackHyp ix target 4 ++ crackHyp ix target 5 ++ crackHyp ix target 6 ++ crackHyp ix target 7 ++
    crackHyp ix target 8 ++ crackHyp ix target 9)

/-- Every candidate is below 10^9, and a CRACK pushes at most 1,000,400,000 words. -/
def Obligations.CandidatesAreBounded : Prop :=
  ∀ poly target : Word,
    (∀ c ∈ crackSeq (construction poly) target, c.toNat < 10 ^ 9) ∧
    (crackSeq (construction poly) target).length ≤ 1000400000

/-- Soundness and completeness of the candidates, width by width: under hypothesis i at most 5 every emitted value has the
wanted digest and, when it has at most i digits, its i-character text hashes to h (a longer value has no such text); under i
at least 6 every emitted value has exactly i digits and its text hashes to h; and every text of a width that hashes to h has
its value emitted under that width. -/
def Obligations.CandidatesAreSoundAndComplete : Prop :=
  ∀ (poly h : Word) (i : Nat), 1 ≤ i → i ≤ 9 →
    (∀ v ∈ crackHyp (construction poly) (targetOf h) i, i < 6 →
      v.toNat < 100000 ∧
      digestOf (tableGen poly) v.toNat false = targetOf h ^^^ prefixReg (tableGen poly) i ∧
      (v.toNat < 10 ^ i → feed (tableGen poly) 0xFFFFFFFF#32
        ((List.replicate (i - (digits v.toNat).length) 0 ++ digits v.toNat).map fun d => 0x30#8 ^^^ digitByte d)
          ^^^ 0xFFFFFFFF#32 = h)) ∧
    (∀ v ∈ crackHyp (construction poly) (targetOf h) i, 6 ≤ i →
      10 ^ (i - 1) ≤ v.toNat ∧ v.toNat < 10 ^ i ∧
      feed (tableGen poly) 0xFFFFFFFF#32 ((digits v.toNat).map fun d => 0x30#8 ^^^ digitByte d)
        ^^^ 0xFFFFFFFF#32 = h) ∧
    (∀ n, n < 10 ^ i → (6 ≤ i → 10 ^ (i - 1) ≤ n) →
      feed (tableGen poly) 0xFFFFFFFF#32
        ((List.replicate (i - (digits n).length) 0 ++ digits n).map fun d => 0x30#8 ^^^ digitByte d)
          ^^^ 0xFFFFFFFF#32 = h →
      BitVec.ofNat 30 n ∈ crackHyp (construction poly) (targetOf h) i)

/-- The loop over the progress registers emits exactly the words that PEND holds, in the same order. The loop is the model's
own realisation of those registers, beside the machine, which holds PEND (log entry 6). -/
def Obligations.CrackLoopEmitsCrackSeq : Prop :=
  ∀ (ix : Index) (target : Word), ∃ fuel, loopWords ix fuel (loopStart ix target) = some (crackSeq ix target)

/-- In reachable states of two machines, the same polynomial and the same hash give the same candidates in the same
order, whatever else differs. -/
def Obligations.SamePolynomialSameCandidates : Prop :=
  ∀ s t : State, Inv s → Inv t → s.cur = .none → t.cur = .none → s.built = true → t.built = true →
    s.poly = t.poly → s.hashAcc = t.hashAcc →
    ∃ u v, exec .crack s = .next u ∧ exec .crack t = .next v ∧ u.pend = v.pend ∧ u.index = v.index

/-! ### Engine control -/

/-- CONSTRUCT, whole: its word, its refusal, its issue and all it leaves unchanged, its completion step, its example. -/
def Obligations.ConstructBuildsForPolynomial : Prop :=
  decode 0x00000001#32 = .ok .construct ∧
  (∀ s : State, s.cur ≠ .none → exec .construct s = .next { s with err := .busy }) ∧
  (∀ s : State, s.cur = .none → exec .construct s = .next { s with
    err := .none, opnd := s.cmdArg, poly := s.cmdArg, index := none, cur := .construct }) ∧
  (∀ (depth : Nat) (s : State), s.cur = .construct →
    engineStep depth s = some { s with index := some (buildIndex (tableGen s.poly)), cur := .none }) ∧
  (∀ (depth : Nat) (s : State), s.busy = true → s.built = false → s.cur = .construct →
    ∃ t, engineStep depth s = some t ∧ t.busy = false ∧ t.built = true) ∧
  (∀ (depth : Nat) (s t u : State), 0 < depth → s = { State.reset with cmdArg := 0xEDB88320#32 } →
    exec .construct s = .next t → engineStep depth t = some u →
    u.status depth = 0x00000002#32 ∧ u.poly = 0xEDB88320#32)

/-- From an idle engine, the host operations of `CONSTRUCT poly` and the completion step leave the arrays of poly, whatever
was built before. The schedule left to the model lets the engine finish at once (log entries 2 and 7), and `resp` is the
model's (log entry 5). -/
def Obligations.ConstructProgramBuildsAfresh : Prop :=
  ∀ (s : State) (poly : Word) (rest : List HostOp),
    s.cur = .none → s.sched = [] → s.hostq = commandOps .construct (some poly) ++ rest →
    Host.Core.run Sys2Proof.core 3 s = .next ({ s with
      cmdArg := poly, poly := poly, opnd := poly, index := some (construction poly), err := .none,
      hostq := rest, resp := .done } : State)

/-- The engine has exactly the steps ConstructDone, Push and Finish, each with its effect and all it leaves unchanged,
under its condition; idle, or holding on a full FIFO, it has none. -/
def Obligations.EngineStepsExactly : Prop :=
  ∀ (depth : Nat) (s : State),
    (s.cur = .none → engineStep depth s = none) ∧
    (s.cur = .construct → engineStep depth s = some { s with index := some (construction s.poly), cur := .none }) ∧
    ((s.cur = .lookup ∨ s.cur = .crack) → s.pend = [] → engineStep depth s = some { s with cur := .none }) ∧
    (∀ v rest, (s.cur = .lookup ∨ s.cur = .crack) → s.pend = v :: rest → s.outq.length < depth →
      engineStep depth s = some { s with
        pend := rest, outq := s.outq ++ [v], candCount := s.candCount + 1#32 }) ∧
    ((s.cur = .lookup ∨ s.cur = .crack) → s.pend ≠ [] → depth ≤ s.outq.length → engineStep depth s = none)

/-- At the Finish step of a reachable search CAND_COUNT is the length of its whole output. -/
def Obligations.FinishedSearchCountsItsOutput : Prop :=
  ∀ (s : State) (ix : Index), Inv s → s.index = some ix → s.pend = [] →
    (s.cur = .lookup → ∃ t, engineStep Config.outDepth s = some t ∧ t.cur = .none ∧
      t.candCount.toNat = (lookupSeq ix s.opnd).length) ∧
    (s.cur = .crack → ∃ t, engineStep Config.outDepth s = some t ∧ t.cur = .none ∧
      t.candCount.toNat = (crackSeq ix s.tgt).length)

/-- A hold on a full FIFO: the engine has no step; every step but a reset or an OUT_DATA read leaves the hold and BUSY; an
OUT_DATA read enables the engine again; and after a reset nothing holds. -/
def Obligations.HoldLiftedOnlyByPopOrReset : Prop :=
  (∀ s : State, s.held Config.outDepth → engineStep Config.outDepth s = none) ∧
  (∀ s : State, s.held Config.outDepth → s.sched.head? ≠ some .reset →
    (∀ rest, s.hostq ≠ .access (.read 0x10 4) :: rest) → (∀ rest, s.hostq ≠ .drain :: rest) →
    ∃ t, step s = .next t ∧ t.held Config.outDepth ∧ t.busy = true) ∧
  (∀ (s : State) (rest : List HostOp), s.held Config.outDepth → s.sched.head? ≠ some .reset →
    (s.hostq = .access (.read 0x10 4) :: rest ∨ s.hostq = .drain :: rest) →
    ∃ t, step s = .next t ∧ (engineStep Config.outDepth t).isSome = true) ∧
  (∀ s : State, s.sched.head? = some .reset → ∃ t, step s = .next t ∧ ¬t.held Config.outDepth ∧ t.busy = false)

/-- While a command is in progress no output word is lost, added or reordered: a step either keeps the FIFO followed by
the pending words as a sequence, or hands its first word to the host, which reads exactly it. -/
def Obligations.BusyStepConservesOutput : Prop :=
  ∀ s t : State, s.busy = true → s.sched.head? ≠ some .reset → step s = .next t →
    t.outq ++ t.pend = s.outq ++ s.pend ∨
      ∃ v, s.outq = v :: t.outq ∧ t.pend = s.pend ∧ t.resp = .data (0x80000000#32 ||| v.setWidth 32)

/-- A search whose output fits the FIFO completes by itself: one step for each word and one for Finish, with the order of
moves that the model takes when no turn is left (log entries 2 and 7). -/
def Obligations.FittingSearchCompletes : Prop :=
  ∀ s : State, s.searching = true → s.sched = [] → s.outq.length + s.pend.length ≤ Config.outDepth →
    Host.Core.run Sys2Proof.core (s.pend.length + 1) s = .next ({ s with
      cur := .none, pend := [], outq := s.outq ++ s.pend,
      candCount := s.candCount + BitVec.ofNat 32 s.pend.length } : State)

/-- A host that drains lets every search complete, however long its output and whatever OUT_DEPTH is: some number of steps
leads to an idle engine with nothing left, the count final and the DRAIN done, with the order of moves that the model takes
when no turn is left (log entry 2), DRAIN one operation (log entry 9) and `resp` the bus's last answer (log entry 5). -/
def Obligations.DrainingHostLetsSearchComplete : Prop :=
  ∀ (s : State) (rest : List HostOp), s.searching = true → s.sched = [] → s.hostq = .drain :: rest →
    ∃ n, Host.Core.run Sys2Proof.core n s = .next ({ s with
      cur := .none, pend := [], outq := [], candCount := s.candCount + BitVec.ofNat 32 s.pend.length,
      hostq := rest, resp := .data 0#32 } : State)

/-- Between the completion of a CONSTRUCT and the next CONSTRUCT's issue or a reset, no step writes TBL, DIG, SDIG, SVAL,
BKT or POLY; where they are not built or a CONSTRUCT runs, only its completion step writes the arrays, and POLY is written
only by the issue of a CONSTRUCT. That unbuilt arrays are absent, and that the completion is one step, is the model's reading
(log entries 3 and 7). -/
def Obligations.BuiltArraysAreFrozen : Prop :=
  (∀ (s t : State) (ix : Index), s.index = some ix → s.cur ≠ .construct → s.sched.head? ≠ some .reset →
    step s = .next t →
    (t.index = some ix ∧ t.poly = s.poly) ∨
      (∃ rest, s.hostq = .access (.write 0x00 4 (encode .construct)) :: rest ∧ t.cur = .construct)) ∧
  (∀ s t : State, (s.index = none ∨ s.cur = .construct) → s.sched.head? ≠ some .reset → step s = .next t →
    (t.index = s.index ∨
      (s.cur = .construct ∧
        t = { s with index := some (construction s.poly), cur := .none, sched := s.sched.tail })) ∧
    (t.poly = s.poly ∨
      (∃ rest, s.hostq = .access (.write 0x00 4 (encode .construct)) :: rest ∧ t.cur = .construct)))

/-- Which commands and accesses may change each register: no other step but a reset does. -/
def Obligations.OnlyNamedCommandsWriteEachRegister : Prop :=
  ∀ s t : State, s.sched.head? ≠ some .reset → step s = .next t →
    (t.cmdArg ≠ s.cmdArg → ∃ rest, s.hostq = .access (.write 0x04 4 t.cmdArg) :: rest) ∧
    (t.err ≠ s.err → ∃ v rest, s.hostq = .access (.write 0x00 4 v) :: rest) ∧
    (t.hashAcc ≠ s.hashAcc → ∃ i rest, s.hostq = .access (.write 0x00 4 (encode i)) :: rest ∧
      (i = .hashReset ∨ i = .hashChar ∨ i = .hashLoad)) ∧
    (t.result ≠ s.result → ∃ i rest, s.hostq = .access (.write 0x00 4 (encode i)) :: rest ∧
      (i = .tableRead ∨ i = .resultLoad ∨ i = .crcUpdate ∨ i = .digest ∨ i = .digestPad)) ∧
    (t.poly ≠ s.poly → ∃ rest, s.hostq = .access (.write 0x00 4 (encode .construct)) :: rest) ∧
    (t.opnd ≠ s.opnd → ∃ i rest, s.hostq = .access (.write 0x00 4 (encode i)) :: rest ∧
      (i = .construct ∨ i = .lookup)) ∧
    (t.tgt ≠ s.tgt → ∃ rest, s.hostq = .access (.write 0x00 4 (encode .crack)) :: rest) ∧
    (t.candCount ≠ s.candCount →
      (∃ i rest, s.hostq = .access (.write 0x00 4 (encode i)) :: rest ∧ (i = .lookup ∨ i = .crack)) ∨
      (s.searching = true ∧ t.candCount = s.candCount + 1#32 ∧ t.outq.length = s.outq.length + 1))

/-! ### The register window -/

/-- An access that is not 32 bits wide, not at a multiple of 4, or at 0x24 or above raises BusFault, read or write, and
changes no state of the CORE; every other access does not fault. -/
def Obligations.IllegalAccessIsBusFault : Prop :=
  ∀ (depth off size : Nat) (v : Word) (s : State),
    ((size ≠ 4 ∨ off % 4 ≠ 0 ∨ 0x24 ≤ off) →
      hostOp depth (.access (.read off size)) s = .next { s with resp := .busFault } ∧
      hostOp depth (.access (.write off size v)) s = .next { s with resp := .busFault }) ∧
    (¬(size ≠ 4 ∨ off % 4 ≠ 0 ∨ 0x24 ≤ off) →
      (∃ t w, hostOp depth (.access (.read off size)) s = .next t ∧ t.resp = .data w) ∧
      (∃ t, hostOp depth (.access (.write off size v)) s = .next t ∧ t.resp = .done))

/-- The value of each register's read but OUT_DATA's, and that the read changes nothing. -/
def Obligations.RegisterReadsChangeNothing : Prop :=
  ∀ (depth : Nat) (s : State),
    hostOp depth (.access (.read 0x00 4)) s = .next { s with resp := .data 0#32 } ∧
    hostOp depth (.access (.read 0x04 4)) s = .next { s with resp := .data s.cmdArg } ∧
    hostOp depth (.access (.read 0x08 4)) s = .next { s with resp := .data (s.status depth) } ∧
    hostOp depth (.access (.read 0x0C 4)) s = .next { s with resp := .data s.result } ∧
    hostOp depth (.access (.read 0x14 4)) s = .next { s with resp := .data (BitVec.ofNat 32 s.outq.length) } ∧
    hostOp depth (.access (.read 0x18 4)) s = .next { s with resp := .data s.hashAcc } ∧
    hostOp depth (.access (.read 0x1C 4)) s = .next { s with resp := .data s.poly } ∧
    hostOp depth (.access (.read 0x20 4)) s = .next { s with resp := .data s.candCount }

/-- PopOut: an empty FIFO reads 0 and changes nothing; a non-empty one gives its head with VALID and drops it. -/
def Obligations.OutDataReadPops : Prop :=
  ∀ (depth : Nat) (s : State),
    (s.outq = [] → hostOp depth (.access (.read 0x10 4)) s = .next { s with resp := .data 0#32 }) ∧
    (∀ v rest, s.outq = v :: rest → hostOp depth (.access (.read 0x10 4)) s =
      .next { s with outq := rest, resp := .data (0x80000000#32 ||| v.setWidth 32) })

/-- A read of CMD_OP gives 0; writes to the seven read-only registers complete and change nothing. -/
def Obligations.ReadOnlyWritesAreIgnored : Prop :=
  ∀ (depth : Nat) (v : Word) (s : State),
    hostOp depth (.access (.read 0x00 4)) s = .next { s with resp := .data 0#32 } ∧
    ∀ off ∈ [0x08, 0x0C, 0x10, 0x14, 0x18, 0x1C, 0x20],
      hostOp depth (.access (.write off 4 v)) s = .next { s with resp := .done }

/-- A write of CMD_ARG stores the word, also while a command is in progress, and no command writes CMD_ARG. -/
def Obligations.CmdArgStoresTheOperand : Prop :=
  (∀ (depth : Nat) (v : Word) (s : State),
    hostOp depth (.access (.write 0x04 4 v)) s = .next { s with cmdArg := v, resp := .done }) ∧
  (∀ (i : Instr) (s : State), ∃ t, exec i s = .next t ∧ t.cmdArg = s.cmdArg)

/-- Every bit of STATUS. -/
def Obligations.StatusBitsAsLaidOut : Prop :=
  ∀ (depth : Nat) (s : State),
    (s.status depth).getLsbD 0 = decide (s.cur ≠ .none) ∧
    (s.status depth).getLsbD 1 = s.index.isSome ∧
    ((s.status depth).extractLsb' 2 3).toNat =
      (match s.err with
        | .none => 0
        | .illegalCommand => 1
        | .busy => 2
        | .notBuilt => 3) ∧
    (s.status depth).getLsbD 5 = decide (0 < s.outq.length) ∧
    (s.status depth).getLsbD 6 = decide (s.outq.length = depth) ∧
    (s.status depth).extractLsb' 7 25 = 0#25

/-! ### Invariants -/

/-- The reset state meets the invariant. -/
def Obligations.InvariantHoldsAtReset : Prop := Inv State.reset

/-- Every step of the machine keeps the invariant, from every state that meets it, whoever moves. -/
def Obligations.StepKeepsInvariant : Prop := ∀ s t : State, Inv s → step s = .next t → Inv t

/-! ### The assembler -/

/-- What each assembler line becomes: the writes of a command, the accesses of the `W` and `R` lines, the POLL and DRAIN
loops as one host operation each (log entry 9; what a loop reads is no part of this statement), and the expansions of the
pseudo-instructions. Two things here are the model's choice (log entry 11): a blank line becomes no operation, and a `W` or
`R` line may name any offset, which the assembler does not check. -/
def Obligations.AssemblerLinesExpand : Prop :=
  (∀ (i : Instr) (w : Nat), w < 2 ^ 32 → operandForm i = .word →
    assemble [.command i (some (.num w))] =
      some [.access (.write 0x04 4 (BitVec.ofNat 32 w)), .access (.write 0x00 4 (encode i))]) ∧
  (∀ (i : Instr) (b : Byte), operandForm i = .byte →
    assemble [.command i (some (.num b.toNat))] =
      some [.access (.write 0x04 4 (b.setWidth 32)), .access (.write 0x00 4 (encode i))] ∧
    assemble [.command i (some (.chr b))] =
      some [.access (.write 0x04 4 (b.setWidth 32)), .access (.write 0x00 4 (encode i))]) ∧
  (∀ i : Instr, operandForm i = .none →
    assemble [.command i none] = some [.access (.write 0x00 4 (encode i))]) ∧
  (∀ off v : Nat, v < 2 ^ 32 →
    assemble [.writeReg off v] = some [.access (.write off 4 (BitVec.ofNat 32 v))]) ∧
  (∀ off : Nat, assemble [.readReg off] = some [.access (.read off 4)]) ∧
  assemble [.poll] = some [.poll] ∧ assemble [.drain] = some [.drain] ∧ assemble [.blank] = some [] ∧
  assemble [.constructDefault] = assemble [.command .construct (some (.num 0xEDB88320))] ∧
  (∀ s : List Byte, assemble [.hash s] =
    assemble (.command .hashReset none :: s.map fun c => .command .hashChar (some (.chr c)))) ∧
  (∀ s : List Byte, assemble [.crackHex s] = assemble [.hash s, .command .crack none]) ∧
  (∀ (s0 : Nat) (bs : List AsmOperand), assemble [.crcBytes s0 bs] =
    assemble (.command .resultLoad (some (.num s0)) :: bs.map fun b => .command .crcUpdate (some b))) ∧
  assemble [.wait] = assemble [.poll, .readReg 0x08]

/-- On an idle machine the two writes of an assembled command run it with its operand in CMD_ARG (the order of moves is
the model's, log entry 2, and so is `resp`, log entry 5). -/
def Obligations.AssembledCommandRuns : Prop :=
  ∀ (s : State) (i : Instr) (w : Word) (rest : List HostOp),
    s.cur = .none → s.sched = [] → s.hostq = commandOps i (some w) ++ rest →
    Host.Core.run Sys2Proof.core 2 s = exec i { s with cmdArg := w, hostq := rest, resp := .done }

/-- On an idle machine the host operations of `HASH "s"` leave the parsed string in HASH_ACC (the order of moves is the
model's, log entry 2, and so is `resp`, log entry 5). -/
def Obligations.AssembledHashParses : Prop :=
  ∀ (s : State) (cs : List Byte) (rest : List HostOp),
    s.cur = .none → s.sched = [] → s.hostq = lineOps (.hash cs) ++ rest →
    ∃ t, Host.Core.run Sys2Proof.core (2 * cs.length + 1) s = .next t ∧
      t = { s with
        hostq := rest, resp := .done, err := .none,
        cmdArg := (cs.getLast?.map (·.setWidth 32)).getD s.cmdArg,
        hashAcc := BitVec.ofNat 32 (Nat.ofDigits 16 (cs.reverse.map hexVal)) }
end

