-- ==== Sys2Proof/Laws/State.lean ====
section
/-! SUPPORT. One lemma per field and update of State, true by rfl, so that no later proof unfolds a record update. -/

namespace Sys2Proof.Machine

variable (s : State)

/-! ### setResult -/

@[simp] theorem State.setResult_cmdArg (w : Word) : (s.setResult w).cmdArg = s.cmdArg := rfl
@[simp] theorem State.setResult_err (w : Word) : (s.setResult w).err = s.err := rfl
@[simp] theorem State.setResult_result (w : Word) : (s.setResult w).result = w := rfl
@[simp] theorem State.setResult_hashAcc (w : Word) : (s.setResult w).hashAcc = s.hashAcc := rfl
@[simp] theorem State.setResult_poly (w : Word) : (s.setResult w).poly = s.poly := rfl
@[simp] theorem State.setResult_candCount (w : Word) : (s.setResult w).candCount = s.candCount := rfl
@[simp] theorem State.setResult_index (w : Word) : (s.setResult w).index = s.index := rfl
@[simp] theorem State.setResult_outq (w : Word) : (s.setResult w).outq = s.outq := rfl
@[simp] theorem State.setResult_cur (w : Word) : (s.setResult w).cur = s.cur := rfl
@[simp] theorem State.setResult_opnd (w : Word) : (s.setResult w).opnd = s.opnd := rfl
@[simp] theorem State.setResult_tgt (w : Word) : (s.setResult w).tgt = s.tgt := rfl
@[simp] theorem State.setResult_pend (w : Word) : (s.setResult w).pend = s.pend := rfl
@[simp] theorem State.setResult_hostq (w : Word) : (s.setResult w).hostq = s.hostq := rfl
@[simp] theorem State.setResult_sched (w : Word) : (s.setResult w).sched = s.sched := rfl
@[simp] theorem State.setResult_resp (w : Word) : (s.setResult w).resp = s.resp := rfl

/-! ### setHashAcc -/

@[simp] theorem State.setHashAcc_cmdArg (w : Word) : (s.setHashAcc w).cmdArg = s.cmdArg := rfl
@[simp] theorem State.setHashAcc_err (w : Word) : (s.setHashAcc w).err = s.err := rfl
@[simp] theorem State.setHashAcc_result (w : Word) : (s.setHashAcc w).result = s.result := rfl
@[simp] theorem State.setHashAcc_hashAcc (w : Word) : (s.setHashAcc w).hashAcc = w := rfl
@[simp] theorem State.setHashAcc_poly (w : Word) : (s.setHashAcc w).poly = s.poly := rfl
@[simp] theorem State.setHashAcc_candCount (w : Word) : (s.setHashAcc w).candCount = s.candCount := rfl
@[simp] theorem State.setHashAcc_index (w : Word) : (s.setHashAcc w).index = s.index := rfl
@[simp] theorem State.setHashAcc_outq (w : Word) : (s.setHashAcc w).outq = s.outq := rfl
@[simp] theorem State.setHashAcc_cur (w : Word) : (s.setHashAcc w).cur = s.cur := rfl
@[simp] theorem State.setHashAcc_opnd (w : Word) : (s.setHashAcc w).opnd = s.opnd := rfl
@[simp] theorem State.setHashAcc_tgt (w : Word) : (s.setHashAcc w).tgt = s.tgt := rfl
@[simp] theorem State.setHashAcc_pend (w : Word) : (s.setHashAcc w).pend = s.pend := rfl
@[simp] theorem State.setHashAcc_hostq (w : Word) : (s.setHashAcc w).hostq = s.hostq := rfl
@[simp] theorem State.setHashAcc_sched (w : Word) : (s.setHashAcc w).sched = s.sched := rfl
@[simp] theorem State.setHashAcc_resp (w : Word) : (s.setHashAcc w).resp = s.resp := rfl

/-! ### setCmdArg -/

@[simp] theorem State.setCmdArg_cmdArg (w : Word) : (s.setCmdArg w).cmdArg = w := rfl
@[simp] theorem State.setCmdArg_err (w : Word) : (s.setCmdArg w).err = s.err := rfl
@[simp] theorem State.setCmdArg_result (w : Word) : (s.setCmdArg w).result = s.result := rfl
@[simp] theorem State.setCmdArg_hashAcc (w : Word) : (s.setCmdArg w).hashAcc = s.hashAcc := rfl
@[simp] theorem State.setCmdArg_poly (w : Word) : (s.setCmdArg w).poly = s.poly := rfl
@[simp] theorem State.setCmdArg_candCount (w : Word) : (s.setCmdArg w).candCount = s.candCount := rfl
@[simp] theorem State.setCmdArg_index (w : Word) : (s.setCmdArg w).index = s.index := rfl
@[simp] theorem State.setCmdArg_outq (w : Word) : (s.setCmdArg w).outq = s.outq := rfl
@[simp] theorem State.setCmdArg_cur (w : Word) : (s.setCmdArg w).cur = s.cur := rfl
@[simp] theorem State.setCmdArg_opnd (w : Word) : (s.setCmdArg w).opnd = s.opnd := rfl
@[simp] theorem State.setCmdArg_tgt (w : Word) : (s.setCmdArg w).tgt = s.tgt := rfl
@[simp] theorem State.setCmdArg_pend (w : Word) : (s.setCmdArg w).pend = s.pend := rfl
@[simp] theorem State.setCmdArg_hostq (w : Word) : (s.setCmdArg w).hostq = s.hostq := rfl
@[simp] theorem State.setCmdArg_sched (w : Word) : (s.setCmdArg w).sched = s.sched := rfl
@[simp] theorem State.setCmdArg_resp (w : Word) : (s.setCmdArg w).resp = s.resp := rfl

/-! ### refuse -/

@[simp] theorem State.refuse_cmdArg (c : ErrCode) : (s.refuse c).cmdArg = s.cmdArg := rfl
@[simp] theorem State.refuse_err (c : ErrCode) : (s.refuse c).err = c := rfl
@[simp] theorem State.refuse_result (c : ErrCode) : (s.refuse c).result = s.result := rfl
@[simp] theorem State.refuse_hashAcc (c : ErrCode) : (s.refuse c).hashAcc = s.hashAcc := rfl
@[simp] theorem State.refuse_poly (c : ErrCode) : (s.refuse c).poly = s.poly := rfl
@[simp] theorem State.refuse_candCount (c : ErrCode) : (s.refuse c).candCount = s.candCount := rfl
@[simp] theorem State.refuse_index (c : ErrCode) : (s.refuse c).index = s.index := rfl
@[simp] theorem State.refuse_outq (c : ErrCode) : (s.refuse c).outq = s.outq := rfl
@[simp] theorem State.refuse_cur (c : ErrCode) : (s.refuse c).cur = s.cur := rfl
@[simp] theorem State.refuse_opnd (c : ErrCode) : (s.refuse c).opnd = s.opnd := rfl
@[simp] theorem State.refuse_tgt (c : ErrCode) : (s.refuse c).tgt = s.tgt := rfl
@[simp] theorem State.refuse_pend (c : ErrCode) : (s.refuse c).pend = s.pend := rfl
@[simp] theorem State.refuse_hostq (c : ErrCode) : (s.refuse c).hostq = s.hostq := rfl
@[simp] theorem State.refuse_sched (c : ErrCode) : (s.refuse c).sched = s.sched := rfl
@[simp] theorem State.refuse_resp (c : ErrCode) : (s.refuse c).resp = s.resp := rfl

/-! ### accept -/

@[simp] theorem State.accept_cmdArg : (s.accept).cmdArg = s.cmdArg := rfl
@[simp] theorem State.accept_err : (s.accept).err = .none := rfl
@[simp] theorem State.accept_result : (s.accept).result = s.result := rfl
@[simp] theorem State.accept_hashAcc : (s.accept).hashAcc = s.hashAcc := rfl
@[simp] theorem State.accept_poly : (s.accept).poly = s.poly := rfl
@[simp] theorem State.accept_candCount : (s.accept).candCount = s.candCount := rfl
@[simp] theorem State.accept_index : (s.accept).index = s.index := rfl
@[simp] theorem State.accept_outq : (s.accept).outq = s.outq := rfl
@[simp] theorem State.accept_cur : (s.accept).cur = s.cur := rfl
@[simp] theorem State.accept_opnd : (s.accept).opnd = s.opnd := rfl
@[simp] theorem State.accept_tgt : (s.accept).tgt = s.tgt := rfl
@[simp] theorem State.accept_pend : (s.accept).pend = s.pend := rfl
@[simp] theorem State.accept_hostq : (s.accept).hostq = s.hostq := rfl
@[simp] theorem State.accept_sched : (s.accept).sched = s.sched := rfl
@[simp] theorem State.accept_resp : (s.accept).resp = s.resp := rfl

/-! ### beginConstruct -/

@[simp] theorem State.beginConstruct_cmdArg (w : Word) : (s.beginConstruct w).cmdArg = s.cmdArg := rfl
@[simp] theorem State.beginConstruct_err (w : Word) : (s.beginConstruct w).err = s.err := rfl
@[simp] theorem State.beginConstruct_result (w : Word) : (s.beginConstruct w).result = s.result := rfl
@[simp] theorem State.beginConstruct_hashAcc (w : Word) : (s.beginConstruct w).hashAcc = s.hashAcc := rfl
@[simp] theorem State.beginConstruct_poly (w : Word) : (s.beginConstruct w).poly = w := rfl
@[simp] theorem State.beginConstruct_candCount (w : Word) : (s.beginConstruct w).candCount = s.candCount := rfl
@[simp] theorem State.beginConstruct_index (w : Word) : (s.beginConstruct w).index = none := rfl
@[simp] theorem State.beginConstruct_outq (w : Word) : (s.beginConstruct w).outq = s.outq := rfl
@[simp] theorem State.beginConstruct_cur (w : Word) : (s.beginConstruct w).cur = .construct := rfl
@[simp] theorem State.beginConstruct_opnd (w : Word) : (s.beginConstruct w).opnd = w := rfl
@[simp] theorem State.beginConstruct_tgt (w : Word) : (s.beginConstruct w).tgt = s.tgt := rfl
@[simp] theorem State.beginConstruct_pend (w : Word) : (s.beginConstruct w).pend = s.pend := rfl
@[simp] theorem State.beginConstruct_hostq (w : Word) : (s.beginConstruct w).hostq = s.hostq := rfl
@[simp] theorem State.beginConstruct_sched (w : Word) : (s.beginConstruct w).sched = s.sched := rfl
@[simp] theorem State.beginConstruct_resp (w : Word) : (s.beginConstruct w).resp = s.resp := rfl

/-! ### beginSearch -/

@[simp] theorem State.beginSearch_cmdArg (c : Cur) (ws : List OutWord) : (s.beginSearch c ws).cmdArg = s.cmdArg := rfl
@[simp] theorem State.beginSearch_err (c : Cur) (ws : List OutWord) : (s.beginSearch c ws).err = s.err := rfl
@[simp] theorem State.beginSearch_result (c : Cur) (ws : List OutWord) : (s.beginSearch c ws).result = s.result := rfl
@[simp] theorem State.beginSearch_hashAcc (c : Cur) (ws : List OutWord) : (s.beginSearch c ws).hashAcc = s.hashAcc := rfl
@[simp] theorem State.beginSearch_poly (c : Cur) (ws : List OutWord) : (s.beginSearch c ws).poly = s.poly := rfl
@[simp] theorem State.beginSearch_candCount (c : Cur) (ws : List OutWord) : (s.beginSearch c ws).candCount = 0#32 := rfl
@[simp] theorem State.beginSearch_index (c : Cur) (ws : List OutWord) : (s.beginSearch c ws).index = s.index := rfl
@[simp] theorem State.beginSearch_outq (c : Cur) (ws : List OutWord) : (s.beginSearch c ws).outq = [] := rfl
@[simp] theorem State.beginSearch_cur (c : Cur) (ws : List OutWord) : (s.beginSearch c ws).cur = c := rfl
@[simp] theorem State.beginSearch_opnd (c : Cur) (ws : List OutWord) : (s.beginSearch c ws).opnd = s.opnd := rfl
@[simp] theorem State.beginSearch_tgt (c : Cur) (ws : List OutWord) : (s.beginSearch c ws).tgt = s.tgt := rfl
@[simp] theorem State.beginSearch_pend (c : Cur) (ws : List OutWord) : (s.beginSearch c ws).pend = ws := rfl
@[simp] theorem State.beginSearch_hostq (c : Cur) (ws : List OutWord) : (s.beginSearch c ws).hostq = s.hostq := rfl
@[simp] theorem State.beginSearch_sched (c : Cur) (ws : List OutWord) : (s.beginSearch c ws).sched = s.sched := rfl
@[simp] theorem State.beginSearch_resp (c : Cur) (ws : List OutWord) : (s.beginSearch c ws).resp = s.resp := rfl

/-! ### latchOpnd -/

@[simp] theorem State.latchOpnd_cmdArg (w : Word) : (s.latchOpnd w).cmdArg = s.cmdArg := rfl
@[simp] theorem State.latchOpnd_err (w : Word) : (s.latchOpnd w).err = s.err := rfl
@[simp] theorem State.latchOpnd_result (w : Word) : (s.latchOpnd w).result = s.result := rfl
@[simp] theorem State.latchOpnd_hashAcc (w : Word) : (s.latchOpnd w).hashAcc = s.hashAcc := rfl
@[simp] theorem State.latchOpnd_poly (w : Word) : (s.latchOpnd w).poly = s.poly := rfl
@[simp] theorem State.latchOpnd_candCount (w : Word) : (s.latchOpnd w).candCount = s.candCount := rfl
@[simp] theorem State.latchOpnd_index (w : Word) : (s.latchOpnd w).index = s.index := rfl
@[simp] theorem State.latchOpnd_outq (w : Word) : (s.latchOpnd w).outq = s.outq := rfl
@[simp] theorem State.latchOpnd_cur (w : Word) : (s.latchOpnd w).cur = s.cur := rfl
@[simp] theorem State.latchOpnd_opnd (w : Word) : (s.latchOpnd w).opnd = w := rfl
@[simp] theorem State.latchOpnd_tgt (w : Word) : (s.latchOpnd w).tgt = s.tgt := rfl
@[simp] theorem State.latchOpnd_pend (w : Word) : (s.latchOpnd w).pend = s.pend := rfl
@[simp] theorem State.latchOpnd_hostq (w : Word) : (s.latchOpnd w).hostq = s.hostq := rfl
@[simp] theorem State.latchOpnd_sched (w : Word) : (s.latchOpnd w).sched = s.sched := rfl
@[simp] theorem State.latchOpnd_resp (w : Word) : (s.latchOpnd w).resp = s.resp := rfl

/-! ### latchTgt -/

@[simp] theorem State.latchTgt_cmdArg (w : Word) : (s.latchTgt w).cmdArg = s.cmdArg := rfl
@[simp] theorem State.latchTgt_err (w : Word) : (s.latchTgt w).err = s.err := rfl
@[simp] theorem State.latchTgt_result (w : Word) : (s.latchTgt w).result = s.result := rfl
@[simp] theorem State.latchTgt_hashAcc (w : Word) : (s.latchTgt w).hashAcc = s.hashAcc := rfl
@[simp] theorem State.latchTgt_poly (w : Word) : (s.latchTgt w).poly = s.poly := rfl
@[simp] theorem State.latchTgt_candCount (w : Word) : (s.latchTgt w).candCount = s.candCount := rfl
@[simp] theorem State.latchTgt_index (w : Word) : (s.latchTgt w).index = s.index := rfl
@[simp] theorem State.latchTgt_outq (w : Word) : (s.latchTgt w).outq = s.outq := rfl
@[simp] theorem State.latchTgt_cur (w : Word) : (s.latchTgt w).cur = s.cur := rfl
@[simp] theorem State.latchTgt_opnd (w : Word) : (s.latchTgt w).opnd = s.opnd := rfl
@[simp] theorem State.latchTgt_tgt (w : Word) : (s.latchTgt w).tgt = w := rfl
@[simp] theorem State.latchTgt_pend (w : Word) : (s.latchTgt w).pend = s.pend := rfl
@[simp] theorem State.latchTgt_hostq (w : Word) : (s.latchTgt w).hostq = s.hostq := rfl
@[simp] theorem State.latchTgt_sched (w : Word) : (s.latchTgt w).sched = s.sched := rfl
@[simp] theorem State.latchTgt_resp (w : Word) : (s.latchTgt w).resp = s.resp := rfl

/-! ### endConstruct -/

@[simp] theorem State.endConstruct_cmdArg (ix : Index) : (s.endConstruct ix).cmdArg = s.cmdArg := rfl
@[simp] theorem State.endConstruct_err (ix : Index) : (s.endConstruct ix).err = s.err := rfl
@[simp] theorem State.endConstruct_result (ix : Index) : (s.endConstruct ix).result = s.result := rfl
@[simp] theorem State.endConstruct_hashAcc (ix : Index) : (s.endConstruct ix).hashAcc = s.hashAcc := rfl
@[simp] theorem State.endConstruct_poly (ix : Index) : (s.endConstruct ix).poly = s.poly := rfl
@[simp] theorem State.endConstruct_candCount (ix : Index) : (s.endConstruct ix).candCount = s.candCount := rfl
@[simp] theorem State.endConstruct_index (ix : Index) : (s.endConstruct ix).index = some ix := rfl
@[simp] theorem State.endConstruct_outq (ix : Index) : (s.endConstruct ix).outq = s.outq := rfl
@[simp] theorem State.endConstruct_cur (ix : Index) : (s.endConstruct ix).cur = .none := rfl
@[simp] theorem State.endConstruct_opnd (ix : Index) : (s.endConstruct ix).opnd = s.opnd := rfl
@[simp] theorem State.endConstruct_tgt (ix : Index) : (s.endConstruct ix).tgt = s.tgt := rfl
@[simp] theorem State.endConstruct_pend (ix : Index) : (s.endConstruct ix).pend = s.pend := rfl
@[simp] theorem State.endConstruct_hostq (ix : Index) : (s.endConstruct ix).hostq = s.hostq := rfl
@[simp] theorem State.endConstruct_sched (ix : Index) : (s.endConstruct ix).sched = s.sched := rfl
@[simp] theorem State.endConstruct_resp (ix : Index) : (s.endConstruct ix).resp = s.resp := rfl

/-! ### endSearch -/

@[simp] theorem State.endSearch_cmdArg : (s.endSearch).cmdArg = s.cmdArg := rfl
@[simp] theorem State.endSearch_err : (s.endSearch).err = s.err := rfl
@[simp] theorem State.endSearch_result : (s.endSearch).result = s.result := rfl
@[simp] theorem State.endSearch_hashAcc : (s.endSearch).hashAcc = s.hashAcc := rfl
@[simp] theorem State.endSearch_poly : (s.endSearch).poly = s.poly := rfl
@[simp] theorem State.endSearch_candCount : (s.endSearch).candCount = s.candCount := rfl
@[simp] theorem State.endSearch_index : (s.endSearch).index = s.index := rfl
@[simp] theorem State.endSearch_outq : (s.endSearch).outq = s.outq := rfl
@[simp] theorem State.endSearch_cur : (s.endSearch).cur = .none := rfl
@[simp] theorem State.endSearch_opnd : (s.endSearch).opnd = s.opnd := rfl
@[simp] theorem State.endSearch_tgt : (s.endSearch).tgt = s.tgt := rfl
@[simp] theorem State.endSearch_pend : (s.endSearch).pend = s.pend := rfl
@[simp] theorem State.endSearch_hostq : (s.endSearch).hostq = s.hostq := rfl
@[simp] theorem State.endSearch_sched : (s.endSearch).sched = s.sched := rfl
@[simp] theorem State.endSearch_resp : (s.endSearch).resp = s.resp := rfl

/-! ### push -/

@[simp] theorem State.push_cmdArg (v : OutWord) : (s.push v).cmdArg = s.cmdArg := rfl
@[simp] theorem State.push_err (v : OutWord) : (s.push v).err = s.err := rfl
@[simp] theorem State.push_result (v : OutWord) : (s.push v).result = s.result := rfl
@[simp] theorem State.push_hashAcc (v : OutWord) : (s.push v).hashAcc = s.hashAcc := rfl
@[simp] theorem State.push_poly (v : OutWord) : (s.push v).poly = s.poly := rfl
@[simp] theorem State.push_candCount (v : OutWord) : (s.push v).candCount = s.candCount + 1#32 := rfl
@[simp] theorem State.push_index (v : OutWord) : (s.push v).index = s.index := rfl
@[simp] theorem State.push_outq (v : OutWord) : (s.push v).outq = s.outq ++ [v] := rfl
@[simp] theorem State.push_cur (v : OutWord) : (s.push v).cur = s.cur := rfl
@[simp] theorem State.push_opnd (v : OutWord) : (s.push v).opnd = s.opnd := rfl
@[simp] theorem State.push_tgt (v : OutWord) : (s.push v).tgt = s.tgt := rfl
@[simp] theorem State.push_pend (v : OutWord) : (s.push v).pend = s.pend := rfl
@[simp] theorem State.push_hostq (v : OutWord) : (s.push v).hostq = s.hostq := rfl
@[simp] theorem State.push_sched (v : OutWord) : (s.push v).sched = s.sched := rfl
@[simp] theorem State.push_resp (v : OutWord) : (s.push v).resp = s.resp := rfl

/-! ### setPend -/

@[simp] theorem State.setPend_cmdArg (ws : List OutWord) : (s.setPend ws).cmdArg = s.cmdArg := rfl
@[simp] theorem State.setPend_err (ws : List OutWord) : (s.setPend ws).err = s.err := rfl
@[simp] theorem State.setPend_result (ws : List OutWord) : (s.setPend ws).result = s.result := rfl
@[simp] theorem State.setPend_hashAcc (ws : List OutWord) : (s.setPend ws).hashAcc = s.hashAcc := rfl
@[simp] theorem State.setPend_poly (ws : List OutWord) : (s.setPend ws).poly = s.poly := rfl
@[simp] theorem State.setPend_candCount (ws : List OutWord) : (s.setPend ws).candCount = s.candCount := rfl
@[simp] theorem State.setPend_index (ws : List OutWord) : (s.setPend ws).index = s.index := rfl
@[simp] theorem State.setPend_outq (ws : List OutWord) : (s.setPend ws).outq = s.outq := rfl
@[simp] theorem State.setPend_cur (ws : List OutWord) : (s.setPend ws).cur = s.cur := rfl
@[simp] theorem State.setPend_opnd (ws : List OutWord) : (s.setPend ws).opnd = s.opnd := rfl
@[simp] theorem State.setPend_tgt (ws : List OutWord) : (s.setPend ws).tgt = s.tgt := rfl
@[simp] theorem State.setPend_pend (ws : List OutWord) : (s.setPend ws).pend = ws := rfl
@[simp] theorem State.setPend_hostq (ws : List OutWord) : (s.setPend ws).hostq = s.hostq := rfl
@[simp] theorem State.setPend_sched (ws : List OutWord) : (s.setPend ws).sched = s.sched := rfl
@[simp] theorem State.setPend_resp (ws : List OutWord) : (s.setPend ws).resp = s.resp := rfl

/-! ### pop -/

@[simp] theorem State.pop_cmdArg : (s.pop).cmdArg = s.cmdArg := rfl
@[simp] theorem State.pop_err : (s.pop).err = s.err := rfl
@[simp] theorem State.pop_result : (s.pop).result = s.result := rfl
@[simp] theorem State.pop_hashAcc : (s.pop).hashAcc = s.hashAcc := rfl
@[simp] theorem State.pop_poly : (s.pop).poly = s.poly := rfl
@[simp] theorem State.pop_candCount : (s.pop).candCount = s.candCount := rfl
@[simp] theorem State.pop_index : (s.pop).index = s.index := rfl
@[simp] theorem State.pop_outq : (s.pop).outq = s.outq.tail := rfl
@[simp] theorem State.pop_cur : (s.pop).cur = s.cur := rfl
@[simp] theorem State.pop_opnd : (s.pop).opnd = s.opnd := rfl
@[simp] theorem State.pop_tgt : (s.pop).tgt = s.tgt := rfl
@[simp] theorem State.pop_pend : (s.pop).pend = s.pend := rfl
@[simp] theorem State.pop_hostq : (s.pop).hostq = s.hostq := rfl
@[simp] theorem State.pop_sched : (s.pop).sched = s.sched := rfl
@[simp] theorem State.pop_resp : (s.pop).resp = s.resp := rfl

/-! ### respond -/

@[simp] theorem State.respond_cmdArg (r : Response) : (s.respond r).cmdArg = s.cmdArg := rfl
@[simp] theorem State.respond_err (r : Response) : (s.respond r).err = s.err := rfl
@[simp] theorem State.respond_result (r : Response) : (s.respond r).result = s.result := rfl
@[simp] theorem State.respond_hashAcc (r : Response) : (s.respond r).hashAcc = s.hashAcc := rfl
@[simp] theorem State.respond_poly (r : Response) : (s.respond r).poly = s.poly := rfl
@[simp] theorem State.respond_candCount (r : Response) : (s.respond r).candCount = s.candCount := rfl
@[simp] theorem State.respond_index (r : Response) : (s.respond r).index = s.index := rfl
@[simp] theorem State.respond_outq (r : Response) : (s.respond r).outq = s.outq := rfl
@[simp] theorem State.respond_cur (r : Response) : (s.respond r).cur = s.cur := rfl
@[simp] theorem State.respond_opnd (r : Response) : (s.respond r).opnd = s.opnd := rfl
@[simp] theorem State.respond_tgt (r : Response) : (s.respond r).tgt = s.tgt := rfl
@[simp] theorem State.respond_pend (r : Response) : (s.respond r).pend = s.pend := rfl
@[simp] theorem State.respond_hostq (r : Response) : (s.respond r).hostq = s.hostq := rfl
@[simp] theorem State.respond_sched (r : Response) : (s.respond r).sched = s.sched := rfl
@[simp] theorem State.respond_resp (r : Response) : (s.respond r).resp = r := rfl

/-! ### setHostq -/

@[simp] theorem State.setHostq_cmdArg (ops : List HostOp) : (s.setHostq ops).cmdArg = s.cmdArg := rfl
@[simp] theorem State.setHostq_err (ops : List HostOp) : (s.setHostq ops).err = s.err := rfl
@[simp] theorem State.setHostq_result (ops : List HostOp) : (s.setHostq ops).result = s.result := rfl
@[simp] theorem State.setHostq_hashAcc (ops : List HostOp) : (s.setHostq ops).hashAcc = s.hashAcc := rfl
@[simp] theorem State.setHostq_poly (ops : List HostOp) : (s.setHostq ops).poly = s.poly := rfl
@[simp] theorem State.setHostq_candCount (ops : List HostOp) : (s.setHostq ops).candCount = s.candCount := rfl
@[simp] theorem State.setHostq_index (ops : List HostOp) : (s.setHostq ops).index = s.index := rfl
@[simp] theorem State.setHostq_outq (ops : List HostOp) : (s.setHostq ops).outq = s.outq := rfl
@[simp] theorem State.setHostq_cur (ops : List HostOp) : (s.setHostq ops).cur = s.cur := rfl
@[simp] theorem State.setHostq_opnd (ops : List HostOp) : (s.setHostq ops).opnd = s.opnd := rfl
@[simp] theorem State.setHostq_tgt (ops : List HostOp) : (s.setHostq ops).tgt = s.tgt := rfl
@[simp] theorem State.setHostq_pend (ops : List HostOp) : (s.setHostq ops).pend = s.pend := rfl
@[simp] theorem State.setHostq_hostq (ops : List HostOp) : (s.setHostq ops).hostq = ops := rfl
@[simp] theorem State.setHostq_sched (ops : List HostOp) : (s.setHostq ops).sched = s.sched := rfl
@[simp] theorem State.setHostq_resp (ops : List HostOp) : (s.setHostq ops).resp = s.resp := rfl

/-! ### setSched -/

@[simp] theorem State.setSched_cmdArg (ts : List Turn) : (s.setSched ts).cmdArg = s.cmdArg := rfl
@[simp] theorem State.setSched_err (ts : List Turn) : (s.setSched ts).err = s.err := rfl
@[simp] theorem State.setSched_result (ts : List Turn) : (s.setSched ts).result = s.result := rfl
@[simp] theorem State.setSched_hashAcc (ts : List Turn) : (s.setSched ts).hashAcc = s.hashAcc := rfl
@[simp] theorem State.setSched_poly (ts : List Turn) : (s.setSched ts).poly = s.poly := rfl
@[simp] theorem State.setSched_candCount (ts : List Turn) : (s.setSched ts).candCount = s.candCount := rfl
@[simp] theorem State.setSched_index (ts : List Turn) : (s.setSched ts).index = s.index := rfl
@[simp] theorem State.setSched_outq (ts : List Turn) : (s.setSched ts).outq = s.outq := rfl
@[simp] theorem State.setSched_cur (ts : List Turn) : (s.setSched ts).cur = s.cur := rfl
@[simp] theorem State.setSched_opnd (ts : List Turn) : (s.setSched ts).opnd = s.opnd := rfl
@[simp] theorem State.setSched_tgt (ts : List Turn) : (s.setSched ts).tgt = s.tgt := rfl
@[simp] theorem State.setSched_pend (ts : List Turn) : (s.setSched ts).pend = s.pend := rfl
@[simp] theorem State.setSched_hostq (ts : List Turn) : (s.setSched ts).hostq = s.hostq := rfl
@[simp] theorem State.setSched_sched (ts : List Turn) : (s.setSched ts).sched = ts := rfl
@[simp] theorem State.setSched_resp (ts : List Turn) : (s.setSched ts).resp = s.resp := rfl

/-! ### resetCore -/

@[simp] theorem State.resetCore_cmdArg : s.resetCore.cmdArg = Config.defaultPoly := rfl
@[simp] theorem State.resetCore_err : s.resetCore.err = .none := rfl
@[simp] theorem State.resetCore_result : s.resetCore.result = 0#32 := rfl
@[simp] theorem State.resetCore_hashAcc : s.resetCore.hashAcc = 0#32 := rfl
@[simp] theorem State.resetCore_poly : s.resetCore.poly = 0#32 := rfl
@[simp] theorem State.resetCore_candCount : s.resetCore.candCount = 0#32 := rfl
@[simp] theorem State.resetCore_index : s.resetCore.index = none := rfl
@[simp] theorem State.resetCore_outq : s.resetCore.outq = [] := rfl
@[simp] theorem State.resetCore_cur : s.resetCore.cur = .none := rfl
@[simp] theorem State.resetCore_opnd : s.resetCore.opnd = 0#32 := rfl
@[simp] theorem State.resetCore_tgt : s.resetCore.tgt = 0#32 := rfl
@[simp] theorem State.resetCore_pend : s.resetCore.pend = [] := rfl
@[simp] theorem State.resetCore_hostq : s.resetCore.hostq = s.hostq := rfl
@[simp] theorem State.resetCore_sched : s.resetCore.sched = s.sched := rfl
@[simp] theorem State.resetCore_resp : s.resetCore.resp = .none := rfl

/-! ### The state after reset -/

@[simp] theorem State.reset_cmdArg : State.reset.cmdArg = Config.defaultPoly := rfl
@[simp] theorem State.reset_err : State.reset.err = .none := rfl
@[simp] theorem State.reset_result : State.reset.result = 0#32 := rfl
@[simp] theorem State.reset_hashAcc : State.reset.hashAcc = 0#32 := rfl
@[simp] theorem State.reset_poly : State.reset.poly = 0#32 := rfl
@[simp] theorem State.reset_candCount : State.reset.candCount = 0#32 := rfl
@[simp] theorem State.reset_index : State.reset.index = none := rfl
@[simp] theorem State.reset_outq : State.reset.outq = [] := rfl
@[simp] theorem State.reset_cur : State.reset.cur = .none := rfl
@[simp] theorem State.reset_opnd : State.reset.opnd = 0#32 := rfl
@[simp] theorem State.reset_tgt : State.reset.tgt = 0#32 := rfl
@[simp] theorem State.reset_pend : State.reset.pend = [] := rfl
@[simp] theorem State.reset_hostq : State.reset.hostq = [] := rfl
@[simp] theorem State.reset_sched : State.reset.sched = [] := rfl
@[simp] theorem State.reset_resp : State.reset.resp = .none := rfl

end Sys2Proof.Machine
end

