-- ==== Sys2Proof/Laws/Ops.lean ====
section
/-! SUPPORT. Laws of the shared operations: what an issue can do, the flags, the total array read, OUT_DEPTH. -/

namespace Sys2Proof.Machine

theorem outDepth_pos : 0 < Config.outDepth := Nat.succ_pos _

/-! ### Flags -/

theorem busy_eq_false_iff (s : State) : s.busy = false ↔ s.cur = .none := by
  unfold State.busy; cases s.cur <;> simp

theorem busy_eq_true_iff (s : State) : s.busy = true ↔ s.cur ≠ .none := by
  unfold State.busy; cases s.cur <;> simp

@[simp] theorem busy_accept (s : State) : s.accept.busy = s.busy := rfl

theorem built_eq_true_iff (s : State) : s.built = true ↔ ∃ ix, s.index = some ix := Option.isSome_iff_exists

theorem built_eq_false_iff (s : State) : s.built = false ↔ s.index = none := by
  unfold State.built; cases s.index <;> simp

/-! ### Issue -/

theorem issue_of_busy {s : State} (effect : State → State) (h : s.busy = true) :
    issue s effect = .next (s.refuse .busy) := by
  simp [issue, h]

theorem issue_of_idle {s : State} (effect : State → State) (h : s.busy = false) :
    issue s effect = .next (effect s.accept) := by
  simp [issue, h]

theorem issueBuilt_of_busy {s : State} (effect : Index → State → State) (h : s.busy = true) :
    issueBuilt s effect = .next (s.refuse .busy) := by
  simp [issueBuilt, h]

theorem issueBuilt_of_unbuilt {s : State} (effect : Index → State → State) (h : s.busy = false)
    (hi : s.index = none) : issueBuilt s effect = .next (s.refuse .notBuilt) := by
  simp [issueBuilt, h, hi]

theorem issueBuilt_of_built {s : State} (effect : Index → State → State) {ix : Index} (h : s.busy = false)
    (hi : s.index = some ix) : issueBuilt s effect = .next (effect ix s.accept) := by
  simp [issueBuilt, h, hi]

/-- Everything the issue of a command that does not need BUILT can do. -/
theorem issue_next {s t : State} {effect : State → State} (h : issue s effect = .next t) :
    (s.busy = true ∧ t = s.refuse .busy) ∨ (s.busy = false ∧ t = effect s.accept) := by
  cases hb : s.busy
  · rw [issue_of_idle effect hb] at h; exact .inr ⟨rfl, (Host.Outcome.next.inj h).symm⟩
  · rw [issue_of_busy effect hb] at h; exact .inl ⟨rfl, (Host.Outcome.next.inj h).symm⟩

/-- Everything the issue of a command that needs BUILT can do. -/
theorem issueBuilt_next {s t : State} {effect : Index → State → State} (h : issueBuilt s effect = .next t) :
    (s.busy = true ∧ t = s.refuse .busy) ∨ (s.busy = false ∧ s.index = none ∧ t = s.refuse .notBuilt) ∨
      ∃ ix, s.busy = false ∧ s.index = some ix ∧ t = effect ix s.accept := by
  cases hb : s.busy
  · cases hi : s.index with
    | none =>
      rw [issueBuilt_of_unbuilt effect hb hi] at h
      exact .inr (.inl ⟨rfl, rfl, (Host.Outcome.next.inj h).symm⟩)
    | some ix =>
      rw [issueBuilt_of_built effect hb hi] at h
      exact .inr (.inr ⟨ix, rfl, rfl, (Host.Outcome.next.inj h).symm⟩)
  · rw [issueBuilt_of_busy effect hb] at h; exact .inl ⟨rfl, (Host.Outcome.next.inj h).symm⟩

/-! ### The total array read -/

section Rd

variable {α : Type} [Inhabited α] {n : Nat}

theorem rd_of_lt (v : Vector α n) {i : Nat} (h : i < n) : rd v i = v[i] := by
  simp [rd, h]

theorem rd_of_ge (v : Vector α n) {i : Nat} (h : n ≤ i) : rd v i = default := by
  simp [rd, Nat.not_lt.mpr h]

theorem rd_replicate (x : α) {i : Nat} (h : i < n) : rd (Vector.replicate n x) i = x := by
  rw [rd_of_lt _ h, Vector.getElem_replicate]

theorem rd_ofFn (f : Fin n → α) {i : Nat} (h : i < n) : rd (Vector.ofFn f) i = f ⟨i, h⟩ := by
  rw [rd_of_lt _ h, Vector.getElem_ofFn]

theorem rd_map {β : Type} [Inhabited β] (f : α → β) (v : Vector α n) {i : Nat} (h : i < n) :
    rd (v.map f) i = f (rd v i) := by
  rw [rd_of_lt _ h, rd_of_lt _ h, Vector.getElem_map]

theorem rd_set_self (v : Vector α n) (x : α) {i : Nat} (h : i < n) : rd (v.setIfInBounds i x) i = x := by
  rw [rd_of_lt _ h, Vector.getElem_setIfInBounds_self]

theorem rd_set_ne (v : Vector α n) (x : α) {i j : Nat} (h : i ≠ j) : rd (v.setIfInBounds i x) j = rd v j := by
  by_cases hj : j < n
  · rw [rd_of_lt _ hj, rd_of_lt _ hj, Vector.getElem_setIfInBounds_ne hj h]
  · rw [rd_of_ge _ (Nat.le_of_not_lt hj), rd_of_ge _ (Nat.le_of_not_lt hj)]

theorem rd_set (v : Vector α n) (x : α) {i : Nat} (j : Nat) (h : i < n) :
    rd (v.setIfInBounds i x) j = if i = j then x else rd v j := by
  split
  · next e => subst e; exact rd_set_self v x h
  · next e => exact rd_set_ne v x e

end Rd

end Sys2Proof.Machine
end

