-- ==== Sys2Proof/Laws/Exec.lean ====
section
/-! SUPPORT. What each command's meaning is, as one issue over the shared operations: the provers cite these and the issue laws instead of unfolding exec. -/

namespace Sys2Proof.Machine

variable (s : State)

theorem exec_construct : exec .construct s = issue s fun t => t.beginConstruct t.wordOperand := rfl

theorem exec_hashReset : exec .hashReset s = issue s fun t => t.setHashAcc 0#32 := rfl

theorem exec_hashChar : exec .hashChar s = issue s fun t => t.setHashAcc (hashShift t.hashAcc t.byteOperand) := rfl

theorem exec_hashLoad : exec .hashLoad s = issue s fun t => t.setHashAcc t.wordOperand := rfl

theorem exec_crack : exec .crack s = issueBuilt s fun ix t =>
    (t.latchTgt (targetOf t.hashAcc)).beginSearch .crack (crackSeq ix (targetOf t.hashAcc)) := rfl

theorem exec_tableRead : exec .tableRead s = issueBuilt s fun ix t => t.setResult (tblAt ix.tbl t.byteOperand) := rfl

theorem exec_resultLoad : exec .resultLoad s = issue s fun t => t.setResult t.wordOperand := rfl

theorem exec_crcUpdate : exec .crcUpdate s =
    issueBuilt s fun ix t => t.setResult (update ix.tbl t.result t.byteOperand) := rfl

theorem exec_digest : exec .digest s =
    issueBuilt s fun ix t => t.setResult (digestOf ix.tbl t.natOperand false) := rfl

theorem exec_digestPad : exec .digestPad s =
    issueBuilt s fun ix t => t.setResult (digestOf ix.tbl t.natOperand true) := rfl

theorem exec_lookup : exec .lookup s = issueBuilt s fun ix t =>
    (t.latchOpnd t.wordOperand).beginSearch .lookup (lookupWords ix t.wordOperand) := rfl

@[simp] theorem byteOperand_accept : s.accept.byteOperand = s.byteOperand := rfl

@[simp] theorem wordOperand_accept : s.accept.wordOperand = s.wordOperand := rfl

@[simp] theorem natOperand_accept : s.accept.natOperand = s.natOperand := rfl

/-- The state that an accepted command leaves: its own effect. -/
def Accepted (i : Instr) (s t : State) : Prop :=
  match i with
  | .construct => t = s.accept.beginConstruct s.cmdArg
  | .hashReset => t = s.accept.setHashAcc 0#32
  | .hashChar => t = s.accept.setHashAcc (hashShift s.hashAcc s.byteOperand)
  | .hashLoad => t = s.accept.setHashAcc s.cmdArg
  | .crack => ∃ ix, s.index = some ix ∧
      t = (s.accept.latchTgt (targetOf s.hashAcc)).beginSearch .crack (crackSeq ix (targetOf s.hashAcc))
  | .tableRead => ∃ ix, s.index = some ix ∧ t = s.accept.setResult (tblAt ix.tbl s.byteOperand)
  | .resultLoad => t = s.accept.setResult s.cmdArg
  | .crcUpdate => ∃ ix, s.index = some ix ∧ t = s.accept.setResult (update ix.tbl s.result s.byteOperand)
  | .digest => ∃ ix, s.index = some ix ∧ t = s.accept.setResult (digestOf ix.tbl s.cmdArg.toNat false)
  | .digestPad => ∃ ix, s.index = some ix ∧ t = s.accept.setResult (digestOf ix.tbl s.cmdArg.toNat true)
  | .lookup => ∃ ix, s.index = some ix ∧
      t = (s.accept.latchOpnd s.cmdArg).beginSearch .lookup (lookupWords ix s.cmdArg)

/-- Everything a command can do: the refusal BUSY, the refusal NOT_BUILT, or its own effect. -/
theorem exec_next_cases {i : Instr} {s t : State} (h : exec i s = .next t) :
    (s.busy = true ∧ t = s.refuse .busy) ∨
      (s.busy = false ∧ needsBuilt i = true ∧ s.index = none ∧ t = s.refuse .notBuilt) ∨
      (s.busy = false ∧ Accepted i s t) := by
  have plain : ∀ {effect : State → State}, issue s effect = .next t → (effect s.accept = t → Accepted i s t) →
      (s.busy = true ∧ t = s.refuse .busy) ∨
        (s.busy = false ∧ needsBuilt i = true ∧ s.index = none ∧ t = s.refuse .notBuilt) ∨
        (s.busy = false ∧ Accepted i s t) := by
    intro effect h hacc
    obtain h1 | ⟨h1, h2⟩ := issue_next h
    · exact .inl h1
    · exact .inr (.inr ⟨h1, hacc h2.symm⟩)
  have gated : ∀ {effect : Index → State → State}, issueBuilt s effect = .next t → needsBuilt i = true →
      (∀ ix, s.index = some ix → effect ix s.accept = t → Accepted i s t) →
      (s.busy = true ∧ t = s.refuse .busy) ∨
        (s.busy = false ∧ needsBuilt i = true ∧ s.index = none ∧ t = s.refuse .notBuilt) ∨
        (s.busy = false ∧ Accepted i s t) := by
    intro effect h hn hacc
    obtain h1 | ⟨h1, h2, h3⟩ | ⟨ix, h1, h2, h3⟩ := issueBuilt_next h
    · exact .inl h1
    · exact .inr (.inl ⟨h1, hn, h2, h3⟩)
    · exact .inr (.inr ⟨h1, hacc ix h2 h3.symm⟩)
  cases i with
  | construct => exact plain ((exec_construct s).symm.trans h) fun e => e.symm
  | hashReset => exact plain ((exec_hashReset s).symm.trans h) fun e => e.symm
  | hashChar => exact plain ((exec_hashChar s).symm.trans h) fun e => e.symm
  | hashLoad => exact plain ((exec_hashLoad s).symm.trans h) fun e => e.symm
  | resultLoad => exact plain ((exec_resultLoad s).symm.trans h) fun e => e.symm
  | crack => exact gated ((exec_crack s).symm.trans h) rfl fun ix hi e => ⟨ix, hi, e.symm⟩
  | tableRead => exact gated ((exec_tableRead s).symm.trans h) rfl fun ix hi e => ⟨ix, hi, e.symm⟩
  | crcUpdate => exact gated ((exec_crcUpdate s).symm.trans h) rfl fun ix hi e => ⟨ix, hi, e.symm⟩
  | digest => exact gated ((exec_digest s).symm.trans h) rfl fun ix hi e => ⟨ix, hi, e.symm⟩
  | digestPad => exact gated ((exec_digestPad s).symm.trans h) rfl fun ix hi e => ⟨ix, hi, e.symm⟩
  | lookup => exact gated ((exec_lookup s).symm.trans h) rfl fun ix hi e => ⟨ix, hi, e.symm⟩

end Sys2Proof.Machine
end

