-- ==== Sys2Proof/Laws/Step.lean ====
section
/-! SUPPORT. Laws of the step: what each turn does, what the engine and the host can do, once for all proofs. -/

namespace Sys2Proof.Machine

theorem step_eq (s : State) : step s = stepWith Config.outDepth s := rfl

theorem stepWith_noTurn {depth : Nat} {s : State} (h : s.sched = []) : stepWith depth s = engineFirst depth s := by
  simp [stepWith, h]

theorem stepWith_hostTurn {depth : Nat} {s : State} {ts : List Turn} (h : s.sched = .host :: ts) :
    stepWith depth s = hostFirst depth (s.setSched ts) := by
  simp [stepWith, h]

theorem stepWith_engineTurn {depth : Nat} {s : State} {ts : List Turn} (h : s.sched = .engine :: ts) :
    stepWith depth s = engineFirst depth (s.setSched ts) := by
  simp [stepWith, h]

theorem stepWith_resetTurn {depth : Nat} {s : State} {ts : List Turn} (h : s.sched = .reset :: ts) :
    stepWith depth s = .next (s.setSched ts).resetCore := by
  simp [stepWith, h]

theorem hostStep_none {depth : Nat} {s : State} (h : s.hostq = []) : hostStep depth s = none := by
  simp [hostStep, h]

theorem hostStep_some {depth : Nat} {s : State} {op : HostOp} {rest : List HostOp} (h : s.hostq = op :: rest) :
    hostStep depth s = some (hostOp depth op (s.setHostq rest)) := by
  simp [hostStep, h]

/-- What the two choices of a move answer: the engine's step, the host's, or a wait when neither is enabled. -/
theorem firstOf_cases {a b : Option Result} {s : State} {r : Result} (h : firstOf a b s = r) :
    a = some r ∨ (a = none ∧ b = some r) ∨ (a = none ∧ b = none ∧ r = .next s) := by
  cases a with
  | some x => exact .inl (congrArg some h)
  | none =>
    cases b with
    | some x => exact .inr (.inl ⟨rfl, congrArg some h⟩)
    | none => exact .inr (.inr ⟨rfl, rfl, h.symm⟩)

/-- Everything a step can do: a reset turn, or, with the turn taken from the list, an engine step, a host operation, or a
wait when neither agent is enabled. -/
theorem stepWith_cases {depth : Nat} {s : State} {r : Result} (h : stepWith depth s = r) :
    (∃ ts, s.sched = .reset :: ts ∧ r = .next (s.setSched ts).resetCore) ∨
      ((∀ ts, s.sched ≠ .reset :: ts) ∧
        ((∃ t, engineStep depth (s.setSched s.sched.tail) = some t ∧ r = .next t) ∨
          (∃ op rest, s.hostq = op :: rest ∧ r = hostOp depth op ((s.setSched s.sched.tail).setHostq rest)) ∨
          (engineStep depth (s.setSched s.sched.tail) = none ∧ s.hostq = [] ∧
            r = .next (s.setSched s.sched.tail)))) := by
  have key : ∀ u : State, firstOf (hostStep depth u) (engineMove depth u) u = r ∨
      firstOf (engineMove depth u) (hostStep depth u) u = r →
      (∃ t, engineStep depth u = some t ∧ r = .next t) ∨
        (∃ op rest, u.hostq = op :: rest ∧ r = hostOp depth op (u.setHostq rest)) ∨
        (engineStep depth u = none ∧ u.hostq = [] ∧ r = .next u) := by
    intro u hu
    have eng : ∀ {x}, engineMove depth u = some x → ∃ t, engineStep depth u = some t ∧ x = .next t := by
      intro x hx
      simp only [engineMove, Option.map_eq_some_iff] at hx
      obtain ⟨t, ht, rfl⟩ := hx
      exact ⟨t, ht, rfl⟩
    have host : ∀ {x}, hostStep depth u = some x →
        ∃ op rest, u.hostq = op :: rest ∧ x = hostOp depth op (u.setHostq rest) := by
      intro x hx
      cases hq : u.hostq with
      | nil => simp [hostStep_none hq] at hx
      | cons op rest =>
        rw [hostStep_some hq] at hx
        exact ⟨op, rest, rfl, (Option.some.inj hx).symm⟩
    have engNone : engineMove depth u = none → engineStep depth u = none := by simp [engineMove]
    have hostNone : hostStep depth u = none → u.hostq = [] := by
      cases hq : u.hostq with
      | nil => simp
      | cons op rest => simp [hostStep_some hq]
    rcases hu with hu | hu
    · obtain h1 | ⟨-, h2⟩ | ⟨h1, h2, h3⟩ := firstOf_cases hu
      · exact .inr (.inl (host h1))
      · exact .inl (eng h2)
      · exact .inr (.inr ⟨engNone h2, hostNone h1, h3⟩)
    · obtain h1 | ⟨-, h2⟩ | ⟨h1, h2, h3⟩ := firstOf_cases hu
      · exact .inl (eng h1)
      · exact .inr (.inl (host h2))
      · exact .inr (.inr ⟨engNone h1, hostNone h2, h3⟩)
  cases hs : s.sched with
  | nil =>
    rw [stepWith_noTurn hs] at h
    have hse : s.setSched [] = s := by rw [State.setSched, ← hs]
    refine .inr ⟨by simp, ?_⟩
    simpa [hse] using key s (.inr h)
  | cons turn ts =>
    cases turn with
    | host =>
      rw [stepWith_hostTurn hs] at h
      exact .inr ⟨by simp, by simpa using key _ (.inl h)⟩
    | engine =>
      rw [stepWith_engineTurn hs] at h
      exact .inr ⟨by simp, by simpa using key _ (.inr h)⟩
    | reset =>
      rw [stepWith_resetTurn hs] at h
      exact .inl ⟨ts, rfl, h.symm⟩

/-- Everything an engine step can do (44_engine_control.md R226). -/
theorem engineStep_cases {depth : Nat} {s t : State} (h : engineStep depth s = some t) :
    (s.cur = .construct ∧ t = constructDone s) ∨
      ((s.cur = .lookup ∨ s.cur = .crack) ∧ s.pend = [] ∧ t = s.endSearch) ∨
      ((s.cur = .lookup ∨ s.cur = .crack) ∧ s.outq.length < depth ∧
        ∃ v rest, s.pend = v :: rest ∧ t = (s.setPend rest).push v) := by
  have search : searchStep depth s = some t → (s.pend = [] ∧ t = s.endSearch) ∨ (s.outq.length < depth ∧
      ∃ v rest, s.pend = v :: rest ∧ t = (s.setPend rest).push v) := by
    intro h
    cases hp : s.pend with
    | nil =>
      simp only [searchStep, hp, Option.some.injEq] at h
      exact .inl ⟨rfl, h.symm⟩
    | cons v rest =>
      simp only [searchStep, hp] at h
      split at h
      · next hlt => exact .inr ⟨hlt, v, rest, rfl, (Option.some.inj h).symm⟩
      · cases h
  cases hc : s.cur with
  | none => simp [engineStep, hc] at h
  | construct =>
    simp only [engineStep, hc, Option.some.injEq] at h
    exact .inl ⟨rfl, h.symm⟩
  | lookup =>
    simp only [engineStep, hc] at h
    obtain ⟨h1, h2⟩ | ⟨h1, h2⟩ := search h
    · exact .inr (.inl ⟨.inl rfl, h1, h2⟩)
    · exact .inr (.inr ⟨.inl rfl, h1, h2⟩)
  | crack =>
    simp only [engineStep, hc] at h
    obtain ⟨h1, h2⟩ | ⟨h1, h2⟩ := search h
    · exact .inr (.inl ⟨.inr rfl, h1, h2⟩)
    · exact .inr (.inr ⟨.inr rfl, h1, h2⟩)

end Sys2Proof.Machine
end

