-- ==== Sys2Proof/Laws/Bus.lean ====
section
/-! SUPPORT. Laws of the register window: everything a read and a write can do (20_memory.md R53, R54). -/

namespace Sys2Proof.Machine

/-- Everything a register of the window answers: a word and nothing else, or the pop of OUT_DATA. -/
theorem readWindow_cases {depth off : Nat} {s t : State} {w : Word} (h : readWindow depth off s = some (w, t)) :
    t = s ∨ (off = 0x10 ∧ w = s.outData ∧ t = s.pop) := by
  unfold readWindow at h
  split at h <;> simp_all

/-- Everything a read can do: a BusFault, a word and nothing else, or the pop of OUT_DATA. -/
theorem memRead_cases (depth off size : Nat) (s : State) :
    memRead depth off size s = s.respond .busFault ∨
      (∃ w, memRead depth off size s = s.respond (.data w)) ∨
      (off = 0x10 ∧ size = 4 ∧ memRead depth off size s = s.pop.respond (.data s.outData)) := by
  by_cases hsize : size = 4
  · simp only [memRead, hsize, if_true]
    cases hw : readWindow depth off s with
    | none => exact .inl rfl
    | some p =>
      obtain h | ⟨h1, h2, h3⟩ := readWindow_cases (w := p.1) (t := p.2) hw
      · exact .inr (.inl ⟨p.1, by simp only [h]⟩)
      · exact .inr (.inr ⟨h1, trivial, by simp only [h2, h3]⟩)
  · exact .inl (by simp [memRead, hsize])

/-- Everything a write can do: a BusFault, nothing, a new CMD_ARG, or the issue of a command. -/
theorem memWrite_cases (off size : Nat) (v : Word) (s : State) :
    memWrite off size v s = .next (s.respond .busFault) ∨
      memWrite off size v s = .next (s.respond .done) ∨
      (off = 0x04 ∧ size = 4 ∧ memWrite off size v s = .next ((s.setCmdArg v).respond .done)) ∨
      (off = 0x00 ∧ size = 4 ∧ memWrite off size v s = issueCommand v (s.respond .done)) := by
  unfold memWrite
  split
  · next hsize => split <;> simp_all
  · exact .inl rfl

theorem issueCommand_of_decode {v : Word} {i : Instr} (h : decode v = .ok i) (s : State) :
    issueCommand v s = exec i s := by
  simp [issueCommand, h]

theorem memWrite_cmdOp (v : Word) (s : State) : memWrite 0x00 4 v s = issueCommand v (s.respond .done) := rfl

theorem memWrite_cmdArg (v : Word) (s : State) :
    memWrite 0x04 4 v s = .next ((s.setCmdArg v).respond .done) := rfl

/-- Everything the issue of an OP word can do: the refusal BUSY or ILLEGAL_COMMAND of a word that is no command, or the
meaning of the command it is. -/
theorem issueCommand_cases (v : Word) (s : State) :
    (∃ i, decode v = .ok i ∧ issueCommand v s = exec i s) ∨
      (∃ e, decode v = .error e ∧ s.busy = true ∧ issueCommand v s = .next (s.refuse .busy)) ∨
      (∃ e, decode v = .error e ∧ s.busy = false ∧ issueCommand v s = .next (s.refuse .illegalCommand)) := by
  cases hd : decode v with
  | ok i => exact .inl ⟨i, rfl, issueCommand_of_decode hd s⟩
  | error e =>
    cases hb : s.busy
    · exact .inr (.inr ⟨e, rfl, rfl, by simp [issueCommand, hd, hb]⟩)
    · exact .inr (.inl ⟨e, rfl, rfl, by simp [issueCommand, hd, hb]⟩)

/-- A loop operation changes at most the host's own list. -/
theorem loopWhile_eq (bit : Nat) (op : HostOp) (s : State) : ∃ ops, loopWhile bit op s = s.setHostq ops := by
  unfold loopWhile
  split
  · split
    · exact ⟨_, rfl⟩
    · exact ⟨s.hostq, rfl⟩
  all_goals exact ⟨s.hostq, rfl⟩

/-- Everything an operation of the host can do: an answer and nothing else (a loop may go back to the host's list), the pop
of OUT_DATA, a new CMD_ARG, or the issue of an OP word. -/
theorem hostOp_cases (depth : Nat) (op : HostOp) (s : State) :
    (∃ r ops, hostOp depth op s = .next ((s.respond r).setHostq ops)) ∨
      ((op = .access (.read 0x10 4) ∨ op = .drain) ∧
        ∃ ops, hostOp depth op s = .next ((s.pop.respond (.data s.outData)).setHostq ops)) ∨
      (∃ v, op = .access (.write 0x04 4 v) ∧ hostOp depth op s = .next ((s.setCmdArg v).respond .done)) ∨
      (∃ v, op = .access (.write 0x00 4 v) ∧ hostOp depth op s = issueCommand v (s.respond .done)) := by
  cases op with
  | access a =>
    cases a with
    | read off size =>
      obtain h | ⟨w, h⟩ | ⟨rfl, rfl, h⟩ := memRead_cases depth off size s
      · exact .inl ⟨.busFault, s.hostq, by rw [hostOp, h]; rfl⟩
      · exact .inl ⟨.data w, s.hostq, by rw [hostOp, h]; rfl⟩
      · exact .inr (.inl ⟨.inl rfl, s.hostq, by rw [hostOp, h]; rfl⟩)
    | write off size v =>
      obtain h | h | ⟨rfl, rfl, h⟩ | ⟨rfl, rfl, h⟩ := memWrite_cases off size v s
      · exact .inl ⟨.busFault, s.hostq, by rw [hostOp, h]; rfl⟩
      · exact .inl ⟨.done, s.hostq, by rw [hostOp, h]; rfl⟩
      · exact .inr (.inr (.inl ⟨v, rfl, h⟩))
      · exact .inr (.inr (.inr ⟨v, rfl, h⟩))
  | poll =>
    obtain ⟨ops, h⟩ := loopWhile_eq 0 .poll (memRead depth 0x08 4 s)
    exact .inl ⟨.data (s.status depth), ops, by rw [hostOp, h]; rfl⟩
  | drain =>
    obtain ⟨ops, h⟩ := loopWhile_eq 31 .drain (memRead depth 0x10 4 s)
    exact .inr (.inl ⟨.inr rfl, ops, by rw [hostOp, h]; rfl⟩)

end Sys2Proof.Machine
end

