-- ==== Sys2Proof/Laws/Crc.lean ====
section
/-! SUPPORT. Laws of the pure CRC functions: table entries, feeding, the digit sequence, the digest, the prefix register. -/

namespace Sys2Proof.Machine

/-- TBL[x] of a generated table is the entry of the byte x. -/
theorem tblAt_tableGen (poly : Word) (x : Byte) : tblAt (tableGen poly) x = tableEntry poly x := by
  simp [tblAt, tableGen]

@[simp] theorem feed_nil (tbl : Vector Word 256) (s : Word) : feed tbl s [] = s := rfl

@[simp] theorem feed_cons (tbl : Vector Word 256) (s : Word) (b : Byte) (bs : List Byte) :
    feed tbl s (b :: bs) = feed tbl (update tbl s b) bs := rfl

theorem feed_append (tbl : Vector Word 256) (s : Word) (bs cs : List Byte) :
    feed tbl s (bs ++ cs) = feed tbl (feed tbl s bs) cs := List.foldl_append

/-- Enough fuel gives the same digits. -/
theorem digitsFuel_of_le {f g n : Nat} (hf : n ≤ f) (hg : n ≤ g) : digitsFuel f n = digitsFuel g n := by
  induction f generalizing g n with
  | zero =>
    obtain rfl : n = 0 := Nat.le_zero.mp hf
    cases g <;> simp [digitsFuel]
  | succ f ih =>
    cases g with
    | zero =>
      obtain rfl : n = 0 := Nat.le_zero.mp hg
      simp [digitsFuel]
    | succ g =>
      by_cases h : n = 0
      · simp [digitsFuel, h]
      · simp only [digitsFuel, h, if_false]
        rw [ih (g := g) (by omega) (by omega)]

@[simp] theorem digits_zero : digits 0 = [] := rfl

/-- The digits of a positive number: those of its tenth, then its last (41_digitcrc.md R122). -/
theorem digits_of_pos {n : Nat} (h : 0 < n) : digits n = digits (n / 10) ++ [n % 10] := by
  obtain ⟨m, rfl⟩ : ∃ m, n = m + 1 := ⟨n - 1, by omega⟩
  rw [digits, digitsFuel, if_neg (by omega), digits, digitsFuel_of_le (g := (m + 1) / 10) (by omega) le_rfl]

theorem digestOf_noPad (tbl : Vector Word 256) (n : Nat) :
    digestOf tbl n false = feed tbl 0#32 ((digits n).map digitByte) := rfl

theorem digestOf_pad (tbl : Vector Word 256) (n : Nat) :
    digestOf tbl n true = feed tbl (digestOf tbl n false) (List.replicate Config.padRounds 0#8) := rfl

@[simp] theorem prefixReg_zero (tbl : Vector Word 256) : prefixReg tbl 0 = Config.pregInit := rfl

/-- The rolling step of the prefix register (43_prefix_search.md R187). -/
theorem prefixReg_succ (tbl : Vector Word 256) (i : Nat) :
    prefixReg tbl (i + 1) = update tbl (prefixReg tbl i) Config.padByte :=
  Function.iterate_succ_apply' _ _ _

theorem hexVal_lt (c : Byte) : hexVal c < 16 := by
  unfold hexVal; split
  · omega
  · split
    · omega
    · split <;> omega

end Sys2Proof.Machine
end

