-- ==== Sys2Proof/Laws/Sort.lean ====
section
/-! SUPPORT. Laws of the counting sort's parts and of the lookup: one lemma per loop that says what it leaves in each slot (42_rainbow_index.md R150 to R152, R157). -/

namespace Sys2Proof.Machine

theorem rd_bump {K : Nat} (bkt : Vector Nat K) {k : Nat} (hk : k < K) (j : Nat) :
    rd (bump bkt k) j = rd bkt j + if k = j then 1 else 0 := by
  rw [bump, rd_set _ _ _ hk]; split <;> simp_all

/-- Counting keys from any counters adds, in each slot, the number of the keys that name it. -/
theorem rd_foldl_bump {K : Nat} (key : Nat → Nat) (hkey : ∀ n, key n < K) (ns : List Nat) (bkt : Vector Nat K) (j : Nat) :
    rd (ns.foldl (fun b n => bump b (key n)) bkt) j = rd bkt j + (ns.map key).count j := by
  induction ns generalizing bkt with
  | nil => simp
  | cons n ns ih =>
    rw [List.foldl_cons, ih, rd_bump _ (hkey n), List.map_cons, List.count_cons]
    simp only [beq_iff_eq]; omega

/-- Pass 1 leaves in each slot the number of n whose key it is (42_rainbow_index.md R150). -/
theorem rd_histogram {K N : Nat} (key : Nat → Nat) (hkey : ∀ n, key n < K) {j : Nat} (hj : j < K) :
    rd (histogram K N key) j = ((List.range N).map key).count j := by
  rw [histogram, rd_foldl_bump key hkey, rd_replicate 0 hj, Nat.zero_add]

/-- The running sum over slots 1 to m, from any counters: slot j at most m holds the sum of the counters up to j. -/
theorem rd_foldl_sum {K : Nat} (bkt : Vector Nat K) {m : Nat} (hm : m < K) {j : Nat} (hj : j < K) :
    rd ((List.range' 1 m).foldl (fun b k => b.setIfInBounds k (rd b k + rd b (k - 1))) bkt) j =
      if j ≤ m then ((List.range (j + 1)).map (rd bkt)).sum else rd bkt j := by
  induction m generalizing j with
  | zero =>
    by_cases h : j = 0
    · subst h; simp
    · simp [Nat.not_le.mpr (Nat.pos_of_ne_zero h)]
  | succ m ih =>
    rw [List.range'_1_concat, List.foldl_append, List.foldl_cons, List.foldl_nil, rd_set _ _ _ (by omega)]
    by_cases h : 1 + m = j
    · subst h
      rw [if_pos rfl, ih (by omega) (by omega), ih (by omega) (by omega), if_neg (by omega), if_pos (by omega),
        if_pos (by omega), Nat.add_comm 1 m, List.range_succ (n := m + 1)]
      simp [Nat.add_comm]
    · rw [if_neg h, ih (by omega) hj]
      by_cases h2 : j ≤ m
      · rw [if_pos h2, if_pos (by omega)]
      · rw [if_neg h2, if_neg (by omega)]

/-- The running sum leaves in slot j the sum of the counters up to j (42_rainbow_index.md R151). -/
theorem rd_runningSum {K : Nat} (bkt : Vector Nat K) {j : Nat} (hj : j < K) :
    rd (runningSum bkt) j = ((List.range (j + 1)).map (rd bkt)).sum := by
  rw [runningSum, rd_foldl_sum bkt (by omega) hj, if_pos (by omega)]

section Place

variable {K N : Nat} (dig : Nat → Word) (key : Nat → Nat) (p : Placement K N) (n : Nat)

@[simp] theorem placeOne_bkt :
    (placeOne dig key p n).bkt = p.bkt.setIfInBounds (key n) (rd p.bkt (key n) - 1) := rfl

@[simp] theorem placeOne_sdig :
    (placeOne dig key p n).sdig = p.sdig.setIfInBounds (rd p.bkt (key n) - 1) (dig n) := rfl

@[simp] theorem placeOne_sval :
    (placeOne dig key p n).sval = p.sval.setIfInBounds (rd p.bkt (key n) - 1) n := rfl

end Place

/-- A bucket key is a 16-bit number (42_rainbow_index.md R153). -/
theorem bucketKey_lt (d : Word) : bucketKey d < Config.bktKeys := by
  have h := d.isLt
  simp only [bucketKey, BitVec.toNat_ushiftRight, Config.bktKeys, Nat.shiftRight_eq_div_pow]
  omega

@[simp] theorem construct_tbl (tbl : Vector Word 256) : (buildIndex tbl).tbl = tbl := rfl

/-- DIG[n] is the digest of n (42_rainbow_index.md R150). -/
theorem rd_dig (tbl : Vector Word 256) {n : Nat} (h : n < Config.domN) :
    rd (buildIndex tbl).dig n = digestOf tbl n false := rd_ofFn _ h

theorem mem_bucketRange (ix : Index) (k j : Nat) :
    j ∈ bucketRange ix k ↔ bucketStart ix k ≤ j ∧ j < bucketEnd ix k := by
  simp only [bucketRange, List.mem_range'_1]; omega

/-- A looked-up value is that of an offset of the bucket whose digest is the one looked up (42_rainbow_index.md R157). -/
theorem mem_lookupSeq (ix : Index) (d : Word) (v : Offset) :
    v ∈ lookupSeq ix d ↔
      ∃ j ∈ bucketRange ix (bucketKey d), rd ix.sdig j = d ∧ rd ix.sval j = v := by
  simp only [lookupSeq, List.mem_filterMap, Option.ite_none_right_eq_some, Option.some.injEq]

end Sys2Proof.Machine
end

