-- ==== Sys2Proof/Laws/Index.lean ====
section
/-! SUPPORT. Laws of the built index: what the placement leaves in each counter, where each bucket starts, and the length of a lookup (42_rainbow_index.md R151 to R153, R157). -/

namespace Sys2Proof.Machine

section Place

variable {K N : Nat} (dig : Nat → Word) (key : Nat → Nat)

/-- Placing takes from each counter the number of the placed keys that name it (42_rainbow_index.md R152). -/
theorem rd_foldl_place_bkt (hkey : ∀ n, key n < K) (ns : List Nat) (p : Placement K N) (j : Nat) :
    rd (ns.foldl (placeOne dig key) p).bkt j = rd p.bkt j - (ns.map key).count j := by
  induction ns generalizing p with
  | nil => simp
  | cons n ns ih =>
    rw [List.foldl_cons, ih, placeOne_bkt, rd_set _ _ _ (hkey n), List.map_cons, List.count_cons]
    by_cases h : key n = j
    · subst h; simp; omega
    · simp [h]

end Place

/-- The counts of the values below m sum to the number of entries below m. -/
theorem sum_count_range (l : List Nat) (m : Nat) :
    ((List.range m).map fun k => l.count k).sum = l.countP fun x => decide (x < m) := by
  induction m with
  | zero => simp
  | succ m ih =>
    rw [List.range_succ, List.map_append, List.sum_append, ih]
    clear ih
    induction l with
    | nil => simp
    | cons a l ih =>
      simp only [List.map_cons, List.map_nil, List.sum_cons, List.sum_nil, Nat.add_zero, List.count_cons, beq_iff_eq,
        List.countP_cons, decide_eq_true_eq] at ih ⊢
      split_ifs <;> omega

theorem countP_lt_succ {l : List Nat} {k : Nat} (h : k ∈ l) :
    (l.countP fun x => decide (x < k)) < l.countP fun x => decide (x < k + 1) := by
  rw [← sum_count_range, ← sum_count_range, List.range_succ, List.map_append, List.sum_append]
  have := List.count_pos_iff.2 h
  simp only [List.map_cons, List.map_nil, List.sum_cons, List.sum_nil]
  omega

theorem countP_map_range_le (f : Nat → Nat) (p : Nat → Bool) (N : Nat) : ((List.range N).map f).countP p ≤ N :=
  List.countP_le_length.trans (by rw [List.length_map, List.length_range])

/-- After the three passes, the counter of key k holds the number of entries whose key is below k
(42_rainbow_index.md R150 to R153). -/
theorem rd_countingSort_bkt {K N : Nat} (dig : Nat → Word) (key : Nat → Nat) (hkey : ∀ n, key n < K) {k : Nat}
    (hk : k < K) :
    rd (countingSort K N dig key).bkt k = ((List.range N).map key).countP fun x => decide (x < k) := by
  have hsum : ((List.range (k + 1)).map (rd (histogram K N key))) =
      (List.range (k + 1)).map fun j => ((List.range N).map key).count j :=
    List.map_congr_left fun j hj => rd_histogram key hkey (by have := List.mem_range.1 hj; omega)
  rw [countingSort, placeAll, rd_foldl_place_bkt dig key hkey, rd_runningSum _ hk, hsum, List.range_succ,
    List.map_append, List.sum_append, sum_count_range]
  simp

/-- The entry placed last stands at the start of its bucket (42_rainbow_index.md R152). -/
theorem countingSort_last {K N : Nat} (dig : Nat → Word) (key : Nat → Nat) (hkey : ∀ n, key n < K)
    (h : rd (countingSort K (N + 1) dig key).bkt (key N) < N + 1) :
    rd (countingSort K (N + 1) dig key).sdig (rd (countingSort K (N + 1) dig key).bkt (key N)) = dig N ∧
      rd (countingSort K (N + 1) dig key).sval (rd (countingSort K (N + 1) dig key).bkt (key N)) = N := by
  rw [countingSort, placeAll, List.range_succ, List.foldl_append, List.foldl_cons, List.foldl_nil] at h ⊢
  rw [placeOne_bkt, rd_set_self _ _ (hkey N)] at h ⊢
  rw [placeOne_sdig, placeOne_sval, rd_set_self _ _ h, rd_set_self _ _ h]
  exact ⟨rfl, rfl⟩

/-- The key of a domain value in a build. -/
def domainKey (tbl : Vector Word 256) (n : Nat) : Nat := bucketKey (rd (domainDigests tbl) n)

/-! The arrays of a build are those of the placement, narrowed to 17 bits. Cite these: a `rfl` over them would run the
placement. -/

section IndexOf

variable (tbl : Vector Word 256) (dig : Vector Word Config.domN) (p : Placement Config.bktN Config.domN)

theorem indexOf_bkt : (indexOf tbl dig p).bkt = p.bkt.map (BitVec.ofNat 17) := rfl

theorem indexOf_sdig : (indexOf tbl dig p).sdig = p.sdig := rfl

theorem indexOf_sval : (indexOf tbl dig p).sval = p.sval.map (BitVec.ofNat 17) := rfl

end IndexOf

theorem buildIndex_eq (tbl : Vector Word 256) :
    buildIndex tbl = indexOf tbl (domainDigests tbl) (placement (domainDigests tbl)) := rfl

theorem buildIndex_bkt (tbl : Vector Word 256) :
    (buildIndex tbl).bkt = (placement (domainDigests tbl)).bkt.map (BitVec.ofNat 17) := by
  rw [buildIndex_eq, indexOf_bkt]

theorem buildIndex_sdig (tbl : Vector Word 256) : (buildIndex tbl).sdig = (placement (domainDigests tbl)).sdig := by
  rw [buildIndex_eq, indexOf_sdig]

theorem buildIndex_sval (tbl : Vector Word 256) :
    (buildIndex tbl).sval = (placement (domainDigests tbl)).sval.map (BitVec.ofNat 17) := by
  rw [buildIndex_eq, indexOf_sval]

theorem domainKey_lt (tbl : Vector Word 256) (n : Nat) : domainKey tbl n < 65536 := bucketKey_lt _

/-- How many domain values have a key below k. -/
def keysBelow (tbl : Vector Word 256) (k : Nat) : Nat :=
  ((List.range Config.domN).map (domainKey tbl)).countP fun x => decide (x < k)

theorem keysBelow_le (tbl : Vector Word 256) (k : Nat) : keysBelow tbl k ≤ Config.domN :=
  countP_map_range_le _ _ _

theorem rd_build_bkt (tbl : Vector Word 256) {k : Nat} (hk : k < 65537) :
    rd (placement (domainDigests tbl)).bkt k = keysBelow tbl k := by
  rw [placement, keysBelow]
  exact rd_countingSort_bkt _ _ (fun n => Nat.lt_trans (domainKey_lt tbl n) (by rw [Config.bktN]; omega)) hk

theorem rd_buildIndex_bkt (tbl : Vector Word 256) {k : Nat} (hk : k < 65537) :
    rd (buildIndex tbl).bkt k = BitVec.ofNat 17 (rd (placement (domainDigests tbl)).bkt k) := by
  rw [buildIndex_bkt]; exact rd_map (n := Config.bktN) _ _ hk

theorem rd_buildIndex_sval (tbl : Vector Word 256) {j : Nat} (hj : j < 100000) :
    rd (buildIndex tbl).sval j = BitVec.ofNat 17 (rd (placement (domainDigests tbl)).sval j) := by
  rw [buildIndex_sval]; exact rd_map (n := Config.domN) _ _ hj

theorem rd_buildIndex_bkt_eq (tbl : Vector Word 256) {k : Nat} (hk : k < 65537) :
    rd (buildIndex tbl).bkt k = BitVec.ofNat 17 (keysBelow tbl k) := by
  rw [rd_buildIndex_bkt tbl hk, rd_build_bkt tbl hk]

theorem toNat_ofNat_offset {m : Nat} (h : m ≤ Config.domN) : (BitVec.ofNat 17 m).toNat = m := by
  rw [Config.domN] at h; rw [BitVec.toNat_ofNat]; exact Nat.mod_eq_of_lt (by omega)

/-- The start offset of bucket k is the number of domain values whose key is below k (42_rainbow_index.md R153). -/
theorem bucketStart_build (tbl : Vector Word 256) {k : Nat} (hk : k < 65537) :
    bucketStart (buildIndex tbl) k = keysBelow tbl k := by
  rw [bucketStart, rd_buildIndex_bkt_eq tbl hk, toNat_ofNat_offset (keysBelow_le tbl k)]

theorem keysBelow_lt_succ (tbl : Vector Word 256) {n k : Nat} (hn : n < Config.domN) (hk : domainKey tbl n = k) :
    keysBelow tbl k < keysBelow tbl (k + 1) :=
  countP_lt_succ (List.mem_map.2 ⟨n, List.mem_range.2 hn, hk⟩)

/-- The value placed last is found by a lookup of its digest. -/
theorem last_mem_lookupSeq (tbl : Vector Word 256) {n : Nat} (hn : Config.domN = n + 1) :
    BitVec.ofNat 17 n ∈ lookupSeq (buildIndex tbl) (digestOf tbl n false) := by
  have hlt : n < Config.domN := hn ▸ Nat.lt_succ_self n
  have hdig : rd (domainDigests tbl) n = digestOf tbl n false := rd_dig tbl hlt
  have hlast := countingSort_last (K := Config.bktN) (N := n) (fun n => rd (domainDigests tbl) n)
    (fun n => bucketKey (rd (domainDigests tbl) n))
    (fun n => Nat.lt_trans (domainKey_lt tbl n) (by rw [Config.bktN]; omega))
  rw [← hn, ← placement] at hlast
  have hs := keysBelow_lt_succ tbl hlt (k := bucketKey (digestOf tbl n false)) (by rw [domainKey, hdig])
  simp only [hdig] at hlast
  generalize digestOf tbl n false = d at hdig hlast hs ⊢
  have hk : bucketKey d < 65536 := bucketKey_lt d
  rw [mem_lookupSeq]
  generalize bucketKey d = k at hlast hs hk ⊢
  have h0 := bucketStart_build tbl (k := k) (Nat.lt_succ_of_lt hk)
  have h1 := bucketStart_build tbl (k := k + 1) (Nat.succ_lt_succ hk)
  have hle := keysBelow_le tbl (k + 1)
  rw [rd_build_bkt tbl (Nat.lt_succ_of_lt hk)] at hlast
  generalize keysBelow tbl k = a at hlast hs h0
  generalize keysBelow tbl (k + 1) = b at hs h1 hle
  have hN : a < Config.domN := hs.trans_le hle
  obtain ⟨e1, e2⟩ := hlast hN
  refine ⟨a, (mem_bucketRange _ _ _).2 ⟨h0.le, hs.trans_eq h1.symm⟩, ?_, ?_⟩
  · rw [buildIndex_sdig, e1]
  · rw [rd_buildIndex_sval tbl hN, e2]

/-- A lookup is no longer than 2^17 - 1. -/
theorem length_lookupSeq_le (ix : Index) (d : Word) : (lookupSeq ix d).length ≤ 131071 := by
  refine (List.length_filterMap_le _ _).trans ?_
  have := (rd ix.bkt (bucketKey d + 1)).isLt
  simp only [bucketRange, List.length_range', bucketEnd]
  omega

end Sys2Proof.Machine
end

