-- ==== Sys2Proof/Laws/Candidates.lean ====
section
/-! SUPPORT. Laws of the candidate sequence: where a candidate comes from, and a bound of its length that holds of any arrays (43_prefix_search.md R188 to R190). -/

namespace Sys2Proof.Machine

/-- A candidate of a short hypothesis is a looked-up value (43_prefix_search.md R189). -/
theorem mem_crackHyp_low {ix : Index} {target : Word} {i : Nat} (h : i < 6) (c : OutWord) :
    c ∈ crackHyp ix target i ↔ ∃ v ∈ lookupSeq ix (target ^^^ prefixReg ix.tbl i), v.setWidth 30 = c := by
  rw [crackHyp, if_pos (show i < Config.hypSplit from h), lookupWords, List.mem_map]

/-- A candidate of a long hypothesis is built from a high-order prefix and a looked-up value (43_prefix_search.md R190). -/
theorem mem_crackHyp_high {ix : Index} {target : Word} {i : Nat} (h : 6 ≤ i) (c : OutWord) :
    c ∈ crackHyp ix target i ↔ ∃ p ∈ highPrefixes i,
      ∃ v ∈ lookupSeq ix (target ^^^ prefixReg ix.tbl i ^^^ digestOf ix.tbl p true), candidate p v = c := by
  rw [crackHyp, if_neg (show ¬i < Config.hypSplit from Nat.not_lt.2 h), List.mem_flatMap]
  simp only [List.mem_map]

theorem mem_crackSeq {ix : Index} {target : Word} (c : OutWord) :
    c ∈ crackSeq ix target ↔ ∃ i, (1 ≤ i ∧ i ≤ 9) ∧ c ∈ crackHyp ix target i := by
  rw [crackSeq, List.mem_flatMap]
  simp only [List.mem_range'_1, Config.hypMax]
  exact exists_congr fun i => and_congr_left fun _ => by omega

theorem length_flatMap_le {α β : Type} {l : List α} {f : α → List β} {b : Nat} (h : ∀ a ∈ l, (f a).length ≤ b) :
    (l.flatMap f).length ≤ l.length * b := by
  induction l with
  | nil => simp
  | cons a l ih =>
    rw [List.flatMap_cons, List.length_append, List.length_cons, Nat.succ_mul, Nat.add_comm]
    exact Nat.add_le_add (ih fun x hx => h x (List.mem_cons_of_mem _ hx)) (h a List.mem_cons_self)

/-- What a hypothesis can emit at most, whatever the arrays hold. -/
def hypBound (i : Nat) : Nat := if i < 6 then 131071 else (10 ^ (i - 5) - 10 ^ (i - 6)) * 131071

theorem length_crackHyp_le (ix : Index) (target : Word) (i : Nat) : (crackHyp ix target i).length ≤ hypBound i := by
  rw [crackHyp, hypBound]
  by_cases h : i < 6
  · rw [if_pos (show i < Config.hypSplit from h), if_pos h, lookupWords, List.length_map]
    exact length_lookupSeq_le _ _
  · rw [if_neg (show ¬i < Config.hypSplit from h), if_neg h]
    refine (length_flatMap_le fun p _ => ?_).trans_eq (by rw [highPrefixes, List.length_range'])
    rw [List.length_map]; exact length_lookupSeq_le _ _

/-- A CRACK on any arrays, the unreachable ones too, pushes fewer than 2^32 words. -/
theorem length_crackSeq_lt (ix : Index) (target : Word) : (crackSeq ix target).length < 2 ^ 32 := by
  rw [crackSeq, List.length_flatMap]
  refine (List.sum_le_sum fun i _ => length_crackHyp_le ix target i).trans_lt ?_
  decide

end Sys2Proof.Machine
end

