-- ==== Sys2Proof/Laws/PerInstr.lean ====
section
/-! SUPPORT. The per-instruction family OpWordForm: the OP word of every command has RSV zero, its own opcode as OPC, and is legal (30_encoding.md R81, R84). -/

namespace Sys2Proof.Laws.OpWordForm

/-- The OP word of a command, field by field. -/
def Statement (i : Instr) : Prop :=
  rsvField (encode i) = 0#24 ∧ opcField (encode i) = i.opc ∧ legalOpWord (encode i) = true

theorem construct : Statement .construct := ⟨by decide, by decide, by decide⟩
theorem hashReset : Statement .hashReset := ⟨by decide, by decide, by decide⟩
theorem hashChar : Statement .hashChar := ⟨by decide, by decide, by decide⟩
theorem hashLoad : Statement .hashLoad := ⟨by decide, by decide, by decide⟩
theorem crack : Statement .crack := ⟨by decide, by decide, by decide⟩
theorem tableRead : Statement .tableRead := ⟨by decide, by decide, by decide⟩
theorem resultLoad : Statement .resultLoad := ⟨by decide, by decide, by decide⟩
theorem crcUpdate : Statement .crcUpdate := ⟨by decide, by decide, by decide⟩
theorem digest : Statement .digest := ⟨by decide, by decide, by decide⟩
theorem digestPad : Statement .digestPad := ⟨by decide, by decide, by decide⟩
theorem lookup : Statement .lookup := ⟨by decide, by decide, by decide⟩

end Sys2Proof.Laws.OpWordForm
end

