-- ==== Sys2Proof/Tests/Slice0.lean ====
section
/-! SUPPORT. The model's own tests: decoding of words written out from the spec's table, the smoke tests of WellFormed, one or two small tests per command with values printed in the spec, and for each obligation with hypotheses a witness that meets them. -/

namespace Sys2Proof.Tests

open Sys2Proof.Machine

/-! ### Small states -/

/-- One field of the next state, none when the step has no next state. -/
def field {α : Type} (f : State → α) (r : Result) : Option α :=
  match r with
  | .next t => some (f t)
  | .fault _ => none
  | .refused _ => none

/-- An idle, unbuilt machine with an operand staged. -/
def withArg (w : Word) : State := { State.reset with cmdArg := w }

/-- A machine with a long command in progress. -/
def busyWith (c : Cur) : State := { State.reset with cur := c }

/-- Two entries, then one value throughout. -/
def twoThen {α : Type} (n : Nat) (a b x : α) : Vector α (n + 2) := ⟨⟨a :: b :: List.replicate n x⟩, by simp⟩

/-- Arrays whose bucket 0 holds the two pairs that the default polynomial puts there, (0x0000971A, 80320) and (0, 0)
(95_test_vectors.md), and whose other buckets are empty. -/
def tiny : Index where
  tbl := tableGen Config.defaultPoly
  dig := Vector.replicate Config.domN 0#32
  sdig := twoThen 99998 0x0000971A#32 0#32 0#32
  sval := twoThen 99998 80320#17 0#17 0#17
  bkt := twoThen 65535 0#17 2#17 2#17

/-- An idle machine whose arrays are `tiny`, with an operand staged. -/
def built (w : Word) : State := { State.reset with index := some tiny, poly := Config.defaultPoly, cmdArg := w }

/-- An idle machine right after the construction for a polynomial. -/
def builtFor (poly : Word) : State := { State.reset with index := some (construction poly), poly := poly }

/-- A machine with one host operation to do, the host's turn next. -/
def queued (s : State) (op : HostOp) : State := { s with hostq := [op], sched := [.host] }

/-- A search with one word pending. -/
def pushing (c : Cur) : State := { busyWith c with pend := [5#30] }

/-- A search that holds on a full FIFO. -/
def holding (c : Cur) : State := { pushing c with outq := List.replicate Config.outDepth 7#30 }

/-! ### Decoding -/

theorem test_decode_construct : decode 0b00000000000000000000000000000001#32 = .ok .construct := by decide
theorem test_decode_hashReset : decode 0b00000000000000000000000000000010#32 = .ok .hashReset := by decide
theorem test_decode_hashChar : decode 0b00000000000000000000000000000011#32 = .ok .hashChar := by decide
theorem test_decode_hashLoad : decode 0b00000000000000000000000000000100#32 = .ok .hashLoad := by decide
theorem test_decode_crack : decode 0b00000000000000000000000000000101#32 = .ok .crack := by decide
theorem test_decode_tableRead : decode 0b00000000000000000000000000010000#32 = .ok .tableRead := by decide
theorem test_decode_resultLoad : decode 0b00000000000000000000000000010001#32 = .ok .resultLoad := by decide
theorem test_decode_crcUpdate : decode 0b00000000000000000000000000010010#32 = .ok .crcUpdate := by decide
theorem test_decode_digest : decode 0b00000000000000000000000000010011#32 = .ok .digest := by decide
theorem test_decode_digestPad : decode 0b00000000000000000000000000010100#32 = .ok .digestPad := by decide
theorem test_decode_lookup : decode 0b00000000000000000000000000010101#32 = .ok .lookup := by decide
theorem test_decode_zero_is_illegal : decode 0#32 = .error (.reservedOpcode 0x00#8) := by decide
theorem test_decode_rsv_is_illegal : decode 0x00000101#32 = .error (.reservedBits 1#24) := by decide
theorem test_decode_top_bit_is_illegal : decode 0x80000005#32 = .error (.reservedBits 0x800000#24) := by decide
theorem test_tableWord_crack : decodeTableWord 32 0x05 = some .crack := by decide
theorem test_tableWord_reserved : decodeTableWord 32 0x0F = none := by decide

/-! ### WellFormed: each check refuses an ill-formed term -/

theorem smoke_legal_access : (Access.read 0x20 4).legal = true ∧ (Access.write 0x00 4 1#32).legal = true := by decide
theorem smoke_size_refused : (Access.read 0x10 1).legal = false ∧ (Access.write 0x04 8 0#32).legal = false := by decide
theorem smoke_misaligned_refused : (Access.read 0x02 4).legal = false := by decide
theorem smoke_reserved_offset_refused : (Access.read 0x24 4).legal = false ∧ (Access.read 0x40 4).legal = false := by
  decide
theorem smoke_opWord_legal : legalOpWord 0x00000015#32 = true := by decide
theorem smoke_opWord_rsv_refused : legalOpWord 0x00000115#32 = false := by decide
theorem smoke_opWord_opcode_refused : legalOpWord 0x00000016#32 = false ∧ legalOpWord 0#32 = false := by decide

/-! ### Reset -/

theorem test_reset_status : State.reset.status 4 = 0#32 := by decide
theorem test_reset_crack_not_built : field State.err (exec .crack State.reset) = some .notBuilt := by decide

/-! ### Commands, with the spec's printed values -/

/-- 44_engine_control.md R224: at issue POLY and OPND take CMD_ARG and the status is BUSY alone. -/
theorem test_construct_issue :
    field (fun t => (t.poly, t.opnd, t.status 4)) (exec .construct (built 0x04C11DB7#32)) =
      some (0x04C11DB7#32, 0x04C11DB7#32, 0x00000001#32) := by decide
theorem test_construct_busy : field (fun t => (t.err, t.poly)) (exec .construct (busyWith .lookup)) = some (.busy, 0#32) := by
  decide
/-- 44_engine_control.md R224's example, up to the arrays: after the completion STATUS is 0x00000002. -/
theorem test_construct_done : (engineStep 4 (busyWith .construct)).map (State.status 4) = some 0x00000002#32 := rfl

theorem test_hashReset :
    field State.hashAcc (exec .hashReset { State.reset with hashAcc := 0x12345678#32 }) = some 0#32 := by decide
/-- 43_prefix_search.md R184's example, with the operand's upper bits set. -/
theorem test_hashChar :
    field State.hashAcc (exec .hashChar { withArg 0xFFFFFF36#32 with hashAcc := 0x0CBF4392#32 }) = some 0xCBF43926#32 := by
  decide
/-- 43_prefix_search.md R182 (d). -/
theorem test_parse_inner_space :
    ([0x63#8, 0x62#8, 0x66#8, 0x34#8, 0x20#8, 0x33#8, 0x39#8, 0x32#8, 0x36#8] : List Byte).foldl hashShift 0#32 =
      0xBF403926#32 := by decide
theorem test_hashLoad : field State.hashAcc (exec .hashLoad (withArg 0xCBF43926#32)) = some 0xCBF43926#32 := by decide
theorem test_crack_issue :
    field (fun t => (t.tgt, t.cur, t.hashAcc)) (exec .crack { built 0#32 with hashAcc := 0xCBF43926#32 }) =
      some (0x340BC6D9#32, .crack, 0xCBF43926#32) := by decide
/-- Hypothesis 1 looks up the target XOR P_1 = 0x0B2420DE (43_prefix_search.md R187, R189). -/
theorem test_crackHyp_one : crackHyp tiny (0x0000971A#32 ^^^ 0x0B2420DE#32) 1 = [80320#30] := by decide +kernel
/-- 43_prefix_search.md R194's example: p = 1234, v = 56789. -/
theorem test_candidate : outDataOf (candidate 1234 56789#17) = 0x875BCD15#32 := by decide

/-- 40_polytable.md R105's example, and its corner case. -/
theorem test_tableRead :
    field State.result (exec .tableRead (built 1#32)) = some 0x77073096#32 ∧
      field State.result (exec .tableRead { built 0x00000100#32 with result := 9#32 }) = some 0#32 := by decide +kernel
theorem test_resultLoad : field State.result (exec .resultLoad (withArg 0xFFFFFFFF#32)) = some 0xFFFFFFFF#32 := by decide
/-- 41_digitcrc.md R128's example, with its corner case of the upper bits. -/
theorem test_crcUpdate :
    field State.result (exec .crcUpdate { built 0x00000130#32 with result := 0xFFFFFFFF#32 }) = some 0x0B2420DE#32 := by
  decide +kernel
theorem test_crcUpdate_not_built : field (fun t => (t.err, t.result)) (exec .crcUpdate (withArg 0x30#32)) =
    some (.notBuilt, 0#32) := by decide
/-- 41_digitcrc.md R129's examples. -/
theorem test_digest :
    field State.result (exec .digest (built 12345#32)) = some 0x81296EE9#32 ∧
      field State.result (exec .digest (built 1#32)) = some 0x77073096#32 := by decide +kernel
/-- 41_digitcrc.md R130's example. -/
theorem test_digestPad : field State.result (exec .digestPad (built 1#32)) = some 0xCB5CD3A5#32 := by decide +kernel
/-- 95_test_vectors.md: bucket 0 of the default polynomial. -/
theorem test_lookup :
    field State.pend (exec .lookup (built 0#32)) = some [0#30] ∧
      field (fun t => (t.pend, t.cur, t.opnd)) (exec .lookup (built 0x0000971A#32)) =
        some ([80320#30], .lookup, 0x0000971A#32) := by decide

/-- The three passes on keys 0, 1, 2, 0, 1 with four counters: counts 2, 2, 1, 0, running sums 2, 4, 5, 5, and by hand
value 4 last, in the lower slot of bucket 1 (42_rainbow_index.md R150 to R152). -/
theorem test_countingSort :
    let p := countingSort 4 5 (fun n => BitVec.ofNat 32 (n + 10)) (fun n => n % 3)
    p.bkt.toList = [0, 2, 4, 5] ∧ p.sval.toList = [3, 0, 4, 1, 2] ∧
      p.sdig.toList = [13#32, 10#32, 14#32, 11#32, 12#32] := by decide

/-! ### The engine and the FIFO -/

theorem test_engine_push : (engineStep 2 (pushing .crack)).map (fun t => (t.outq, t.pend, t.candCount)) =
    some ([5#30], [], 1#32) := by decide
theorem test_engine_hold : engineStep 2 { pushing .lookup with outq := [1#30, 2#30] } = none := by decide
theorem test_engine_finish : (engineStep 2 (busyWith .lookup)).map State.cur = some .none := by decide
/-- 42_rainbow_index.md R159's example: the word read for 12345. -/
theorem test_pop : field (fun t => (t.resp, t.outq)) (hostOp 2 (.access (.read 0x10 4)) { State.reset with outq := [12345#30] }) =
    some (.data 0x80003039#32, []) := by decide
theorem test_byte_read_does_not_pop :
    field (fun t => (t.resp, t.outq)) (hostOp 2 (.access (.read 0x10 1)) { State.reset with outq := [12345#30] }) =
      some (.busFault, [12345#30]) := by decide
theorem test_status_full : ({ State.reset with outq := [1#30, 2#30] } : State).status 2 = 0x00000060#32 := by decide

/-! ### The assembler -/

theorem test_assemble_range : assemble [.command .digest (some (.num (2 ^ 32)))] = none ∧
    assemble [.command .tableRead (some (.num 256))] = none ∧ assemble [.command .crack (some (.num 0))] = none := by
  decide
/-- A closing quote ends its word, and a quote does not open against a plain word (the model's choice, log entry 11). -/
theorem test_quotes : parseLine "CRC_BYTES 0 'a''b'".toList = some (.crcBytes 0 [.chr 0x61#8, .chr 0x62#8]) ∧
    parseLine "HASH_CHAR'a'".toList = none := by decide
theorem test_text :
    parseLine "HASH_CHAR 'c' ; one character".toList = some (.command .hashChar (some (.chr 0x63#8))) ∧
      parseLine "W 0x04, 0xEDB88320".toList = some (.writeReg 4 0xEDB88320) ∧
      assembleText ["CRACK_HEX \"5\""] =
        some [.access (.write 0x00 4 0x02#32), .access (.write 0x04 4 0x35#32), .access (.write 0x00 4 0x03#32),
          .access (.write 0x00 4 0x05#32)] := by decide

/-! ### Witnesses: for each obligation with hypotheses, states and operands that meet them, clause by clause -/

theorem witness_OpcodeMapRowByRow :
    0x00#8 ∉ opcodes ∧ 0x06#8 ∉ opcodes ∧ 0x0F#8 ∉ opcodes ∧ 0x16#8 ∉ opcodes ∧ 0xFF#8 ∉ opcodes := by decide

theorem witness_DecodeEncodeAgreeOnAllWords : decode 0x00000001#32 = .ok .construct ∧ decode 0x00000015#32 = .ok .lookup := by
  decide

theorem witness_CommandWriteChecksInOrder :
    (busyWith .construct).cur ≠ .none ∧
    (State.reset.cur = .none ∧
      ¬((0x00000105#32).extractLsb' 8 24 = 0#24 ∧ (0x00000105#32).extractLsb' 0 8 ∈ opcodes)) ∧
    ((0x00000005#32 : Word) = encode .crack ∧
      Instr.crack ∈ ([.tableRead, .crcUpdate, .digest, .digestPad, .lookup, .crack] : List Instr) ∧
      State.reset.index = none) ∧
    ((0x00000001#32 : Word) = encode .construct ∧
      Instr.construct ∈ ([.construct, .hashReset, .hashChar, .hashLoad, .resultLoad] : List Instr)) ∧
    ((built 0#32).cur = .none ∧ (built 0#32).index ≠ none) :=
  ⟨by decide, by decide, by decide, by decide, rfl, Option.some_ne_none _⟩

theorem witness_StatusReadShowsLastCommandCode :
    (∀ (s : State) (v : Word), ∃ t : State, t.cur = s.cur ∧ t.index = s.index ∧ t.sched = .host :: .host :: [] ∧
      t.hostq = .access (.write 0x00 4 v) :: .access (.read 0x08 4) :: []) ∧
    (busyWith .construct).cur ≠ .none ∧
    ¬((0x00000105#32).extractLsb' 8 24 = 0#24 ∧ (0x00000105#32).extractLsb' 0 8 ∈ opcodes) ∧
    (needsBuilt .crack = true ∧ State.reset.index = none) ∧ (needsBuilt .lookup = true → (built 0#32).index ≠ none) :=
  ⟨fun s v => ⟨{ s with
      sched := [.host, .host], hostq := [.access (.write 0x00 4 v), .access (.read 0x08 4)] }, rfl, rfl, rfl, rfl⟩,
    by decide, by decide, by decide, fun _ => Option.some_ne_none _⟩

theorem witness_UnusedOperandBitsHaveNoEffect :
    (0xFFFFFF36#32).extractLsb' 0 8 = (withArg 0x00000036#32).cmdArg.extractLsb' 0 8 := by decide

/-- A host's turn, and an empty list of turns with an idle engine. -/
theorem witness_StepRunsDecodedCommand :
    (queued State.reset (.access (.write 0x00 4 5#32))).hostq = .access (.write 0x00 4 5#32) :: [] ∧
    (queued State.reset (.access (.write 0x00 4 5#32))).sched.head? = some .host ∧
    (State.reset.sched.head? ≠ some .reset ∧ engineStep Config.outDepth State.reset = none) ∧ decode 5#32 = .ok .crack :=
  ⟨rfl, rfl, ⟨by decide, rfl⟩, by decide⟩

theorem witness_HostTurnPerformsNextOperation :
    (queued State.reset .poll).hostq = .poll :: [] ∧ (queued State.reset .poll).sched.head? = some .host := ⟨rfl, rfl⟩

/-- The engine's step with no turn left, in its own turn, and in the host's when the host has nothing to do. -/
theorem witness_EngineTurnTakesItsStep :
    engineStep Config.outDepth (busyWith .lookup) = some State.reset ∧ (busyWith .lookup).sched = [] ∧
    engineStep Config.outDepth { busyWith .lookup with sched := [.engine] } = some { State.reset with sched := [.engine] } ∧
    engineStep Config.outDepth { busyWith .lookup with sched := [.host] } = some { State.reset with sched := [.host] } ∧
    (busyWith .lookup).hostq = [] := ⟨rfl, rfl, rfl, rfl, rfl⟩

theorem witness_NothingEnabledWaits :
    State.reset.hostq = [] ∧ engineStep Config.outDepth State.reset = none ∧ State.reset.sched.head? ≠ some .reset :=
  ⟨rfl, rfl, by decide⟩

theorem witness_ResetFromEveryState : ({ busyWith .crack with sched := [.reset] } : State).sched = .reset :: [] := rfl

theorem witness_ResetLeavesSpecifiedValues : 0 < 1 := Nat.one_pos

/-- Busy, idle and unbuilt, idle and built: the three clauses of each command's statement. -/
def CommandWitness : Prop :=
    ((busyWith .construct).cur ≠ .none ∧ (busyWith .lookup).cur ≠ .none ∧ (busyWith .crack).cur ≠ .none) ∧
    (State.reset.cur = .none ∧ State.reset.index = none) ∧ ((built 7#32).cur = .none ∧ (built 7#32).index = some tiny)

theorem commandWitness : CommandWitness := ⟨by decide, ⟨rfl, rfl⟩, rfl, rfl⟩

theorem witness_TableReadCopiesEntryToResult : CommandWitness := commandWitness
theorem witness_ResultLoadWritesResult : CommandWitness := commandWitness
theorem witness_CrcUpdateAdvancesResult : CommandWitness := commandWitness
theorem witness_DigestWritesResult : CommandWitness := commandWitness
theorem witness_SearchIssueFillsPend : CommandWitness := commandWitness
theorem witness_HashResetClearsAccumulator : CommandWitness := commandWitness
theorem witness_HashLoadEqualsEightDigits : CommandWitness := commandWitness

theorem witness_DigestPadWritesResult :
    (busyWith .crack).cur ≠ .none ∧ ((built 7#32).cur = .none ∧ (built 7#32).index = some tiny) ∧
    0 < 1 ∧ 1 * 100000 < 2 ^ 32 ∧ 0 < 42949 ∧ 42949 * 100000 < 2 ^ 32 := ⟨by decide, ⟨rfl, rfl⟩, by decide⟩

theorem witness_HashCharShiftsInDigit :
    (busyWith .crack).cur ≠ .none ∧ State.reset.cur = .none ∧ hexVal 0x78#8 = 0 ∧ hexVal 0x30#8 = 0 := by decide

theorem witness_DigitsAreTheDecimalDigits : 0 < 1 ∧ 9 ∈ digits 1990 ∧ 0 ∈ digits 1990 := by decide

theorem witness_FeedingIsLinear : ([1#8, 2#8] : List Byte).length = ([3#8, 4#8] : List Byte).length := by decide

theorem witness_DigestProperties : 0 < 1 ∧ 0 < 100000 ∧ 99999 < 100000 := by decide

theorem witness_TextRegisterIsPrefixXorDigest : 0 < 10 ^ 0 ∧ 9 < 10 ^ 1 ∧ 999999999 < 10 ^ 9 := by decide

theorem witness_HexDigitValues :
    (0x30 ≤ (0x30#8).toNat ∧ (0x39#8).toNat ≤ 0x39) ∧ (0x41 ≤ (0x41#8).toNat ∧ (0x46#8).toNat ≤ 0x46) ∧
    (0x61 ≤ (0x61#8).toNat ∧ (0x66#8).toNat ≤ 0x66) ∧
    ∀ c ∈ ([0x2F#8, 0x3A#8, 0x40#8, 0x47#8, 0x60#8, 0x67#8] : List Byte), ¬(0x30 ≤ c.toNat ∧ c.toNat ≤ 0x39) ∧
      ¬(0x41 ≤ c.toNat ∧ c.toNat ≤ 0x46) ∧ ¬(0x61 ≤ c.toNat ∧ c.toNat ≤ 0x66) := by decide

/-! ### Built machines -/

/-- The polynomial of the witnesses. -/
def poly1 : Word := 0xEDB88320#32

/-- A machine right after a construction meets the invariant. -/
theorem inv_builtFor (poly : Word) : Inv (builtFor poly) where
  fifoBounded := Nat.zero_le _
  levelCounted := Nat.zero_le _
  pendOnlyInSearch _ := rfl
  constructUnbuilt h := nomatch h
  constructOperand h := nomatch h
  searchBuilt h := nomatch h
  builtForPoly _ h := (Option.some.inj h).symm
  searchProgress _ h := nomatch h
  wordsBelow _ h := nomatch h

/-- With the polynomial 0 every digest is 0. -/
theorem digestOf_zero (n : Nat) : digestOf (tableGen 0#32) n false = 0#32 := by
  have h : ∀ b, tableEntry 0#32 b = 0#32 := by decide
  rw [digestOf_noPad]
  induction (digits n).map digitByte with
  | nil => rfl
  | cons b bs ih => rw [feed_cons, update, tblAt_tableGen, h]; exact ih

theorem domainKey_zero (n : Nat) : domainKey (tableGen 0#32) n = 0 := by
  rw [domainKey]
  by_cases h : n < Config.domN
  · rw [domainDigests, rd_ofFn _ h]; dsimp only; rw [digestOf_zero]; rfl
  · rw [rd_of_ge _ (Nat.le_of_not_lt h)]; rfl

theorem keysBelow_zero : keysBelow (tableGen 0#32) 0 = 0 ∧ keysBelow (tableGen 0#32) 1 = 100000 := by
  have h : (List.range Config.domN).map (domainKey (tableGen 0#32)) = List.replicate Config.domN 0 := by
    rw [List.map_congr_left fun n _ => domainKey_zero n, List.map_const', List.length_range]
  rw [keysBelow, keysBelow, h, List.countP_replicate, List.countP_replicate]
  exact ⟨rfl, rfl⟩

/-- A built machine, and with the polynomial 0 two places of one bucket at its two ends. -/
theorem witness_BuiltIndexIsSortedPartition :
    (Inv (builtFor 0#32) ∧ (builtFor 0#32).index = some (construction 0#32)) ∧ 0 < 65536 ∧ 65535 < 65536 ∧
    99999 < 100000 ∧ bucketStart (construction 0#32) 0 ≤ 0 ∧ 0 < 99999 ∧ 99999 < bucketEnd (construction 0#32) 0 := by
  have h0 := bucketStart_build (tableGen 0#32) (k := 0) (by decide)
  have h1 := bucketStart_build (tableGen 0#32) (k := 1) (by decide)
  rw [keysBelow_zero.1] at h0
  rw [keysBelow_zero.2] at h1
  exact ⟨⟨inv_builtFor _, rfl⟩, by decide, by decide, by decide, h0.le, by decide, (by decide : 99999 < 100000).trans_eq h1.symm⟩

/-- The sorted arrays of `tiny` beside another table and other digests. -/
def tinyOther : Index :=
  { tiny with tbl := tableGen 0x04C11DB7#32, dig := Vector.replicate Config.domN 1#32 }

/-- Two sets of arrays that share the three that a lookup reads, and differ in the two that it does not. -/
theorem witness_LookupFindsExactlyThePreimages :
    tiny.sdig = tinyOther.sdig ∧ tiny.sval = tinyOther.sval ∧ tiny.bkt = tinyOther.bkt ∧
    tblAt tiny.tbl 0x80#8 ≠ tblAt tinyOther.tbl 0x80#8 ∧ rd tiny.dig 0 ≠ rd tinyOther.dig 0 := by
  refine ⟨rfl, rfl, rfl, ?_, ?_⟩
  · rw [tiny, tinyOther, tblAt_tableGen, tblAt_tableGen]; decide
  · rw [tiny, tinyOther, rd_replicate _ (by decide), rd_replicate _ (by decide)]; decide

theorem witness_ZeroPolynomialIndex : 1 ≤ 1 ∧ 65536 < 65537 ∧ 0 < 100000 ∧ 99999 < 100000 := by decide

theorem witness_CrackSeqFollowsTheHypotheses : 5 < 6 ∧ 6 ≤ 6 := by decide

/-- The hash for which the value 99999 comes out under hypothesis 5. -/
def lowHash (poly : Word) : Word :=
  targetOf (prefixReg (tableGen poly) 5 ^^^ digestOf (tableGen poly) 99999 false)

/-- The hash for which 999999999 comes out under hypothesis 9. -/
def highHash (poly : Word) : Word :=
  targetOf (prefixReg (tableGen poly) 9 ^^^ digestOf (tableGen poly) 9999 true ^^^ digestOf (tableGen poly) 99999 false)

theorem targetOf_targetOf (h : Word) : targetOf (targetOf h) = h := by
  rw [targetOf, targetOf, BitVec.xor_assoc, BitVec.xor_self, BitVec.xor_zero]

theorem last_mem_construction (poly : Word) :
    99999#17 ∈ lookupSeq (construction poly) (digestOf (tableGen poly) 99999 false) :=
  last_mem_lookupSeq (tableGen poly) rfl

theorem mem_low (poly : Word) : 99999#30 ∈ crackHyp (construction poly) (targetOf (lowHash poly)) 5 := by
  rw [lowHash, targetOf_targetOf, mem_crackHyp_low (by decide)]
  refine ⟨99999#17, ?_, by decide⟩
  rw [construction, construct_tbl, BitVec.xor_comm, ← BitVec.xor_assoc, BitVec.xor_self, BitVec.zero_xor]
  exact last_mem_construction poly

theorem mem_high (poly : Word) : 999999999#30 ∈ crackHyp (construction poly) (targetOf (highHash poly)) 9 := by
  rw [highHash, targetOf_targetOf, mem_crackHyp_high (by decide)]
  refine ⟨9999, by rw [highPrefixes, List.mem_range'_1]; decide, 99999#17, ?_, by decide⟩
  rw [construction, construct_tbl]
  generalize prefixReg (tableGen poly) 9 = p
  generalize digestOf (tableGen poly) 9999 true = a
  rw [show ∀ d : Word, p ^^^ a ^^^ d ^^^ p ^^^ a = d by intro d; ext; simp; grind]
  exact last_mem_construction poly

/-- Emitted values under hypotheses 5 and 9, with fewer digits than that and with as many; and texts at the ends of the
widths. -/
theorem witness_CandidatesAreSoundAndComplete :
    (1 ≤ 5 ∧ 5 ≤ 9 ∧ 99999#30 ∈ crackHyp (construction poly1) (targetOf (lowHash poly1)) 5 ∧ 5 < 6 ∧
      (99999#30).toNat < 10 ^ 5) ∧
    (1 ≤ 9 ∧ 9 ≤ 9 ∧ 999999999#30 ∈ crackHyp (construction poly1) (targetOf (highHash poly1)) 9 ∧ 6 ≤ 9) ∧
    (0 < 10 ^ 1 ∧ (6 ≤ 1 → 10 ^ (1 - 1) ≤ 0)) ∧ (100000 < 10 ^ 6 ∧ (6 ≤ 6 → 10 ^ (6 - 1) ≤ 100000)) ∧
    ∃ h, feed (tableGen poly1) 0xFFFFFFFF#32
      ((List.replicate (1 - (digits 0).length) 0 ++ digits 0).map fun d => 0x30#8 ^^^ digitByte d) ^^^ 0xFFFFFFFF#32 = h :=
  ⟨⟨by decide, by decide, mem_low poly1, by decide, by decide⟩, ⟨by decide, by decide, mem_high poly1, by decide⟩,
    by decide, by decide, _, rfl⟩

theorem witness_CandidatesAreBounded :
    99999#30 ∈ crackSeq (construction poly1) (targetOf (lowHash poly1)) :=
  (mem_crackSeq _).2 ⟨5, by decide, mem_low poly1⟩

theorem witness_SamePolynomialSameCandidates :
    Inv (builtFor 3#32) ∧ (builtFor 3#32).cur = .none ∧ (builtFor 3#32).built = true ∧
    Inv { builtFor 3#32 with result := 1#32 } ∧ (builtFor 3#32).poly = 3#32 :=
  ⟨inv_builtFor _, rfl, rfl, { inv_builtFor 3#32 with }, rfl⟩

/-! ### The engine and the host -/

theorem witness_ConstructBuildsForPolynomial :
    (busyWith .construct).busy = true ∧ (busyWith .construct).built = false ∧ (busyWith .construct).cur = .construct ∧
    State.reset.cur = .none ∧ 0 < 1 ∧
    exec .construct { State.reset with cmdArg := 0xEDB88320#32 } = .next { State.reset with
      cmdArg := 0xEDB88320#32, opnd := 0xEDB88320#32, poly := 0xEDB88320#32, cur := .construct } :=
  ⟨rfl, rfl, rfl, rfl, Nat.one_pos, rfl⟩

theorem witness_ConstructProgramBuildsAfresh :
    (withArg 0#32).cur = .none ∧ (withArg 0#32).sched = [] ∧
    ({ built 0#32 with hostq := commandOps .construct (some 5#32) ++ [] } : State).hostq =
      commandOps .construct (some 5#32) ++ [] := ⟨rfl, rfl, rfl⟩

/-- Each step's condition, and the hold's at the depth's own length. -/
theorem witness_EngineStepsExactly :
    State.reset.cur = .none ∧ (busyWith .construct).cur = .construct ∧
    ((busyWith .lookup).cur = .lookup ∧ (busyWith .lookup).pend = []) ∧
    ((pushing .crack).cur = .crack ∧ (pushing .crack).pend = 5#30 :: [] ∧ (pushing .crack).outq.length < 1) ∧
    ((holding .crack).pend ≠ [] ∧ Config.outDepth ≤ (holding .crack).outq.length) :=
  ⟨rfl, rfl, ⟨rfl, rfl⟩, ⟨rfl, rfl, Nat.one_pos⟩, List.cons_ne_nil _ _, (List.length_replicate ..).ge⟩

/-- A search at its end, with all its words counted. -/
def atFinish (poly : Word) (c : Cur) (n : Nat) : State :=
  { builtFor poly with cur := c, candCount := BitVec.ofNat 32 n }

theorem witness_FinishedSearchCountsItsOutput :
    (Inv (atFinish poly1 .lookup (lookupWords (construction poly1) 0#32).length) ∧
      Inv (atFinish poly1 .crack (crackSeq (construction poly1) 0#32).length)) ∧
    ∀ c n, (atFinish poly1 c n).index = some (construction poly1) ∧ (atFinish poly1 c n).pend = [] := by
  have key : ∀ (c : Cur) (out : List OutWord), c ≠ .construct → out.length < 2 ^ 32 →
      (atFinish poly1 c out.length).searchOutput = some out → Inv (atFinish poly1 c out.length) := fun c out hc hl ho =>
    { fifoBounded := Nat.zero_le _
      levelCounted := Nat.zero_le _
      pendOnlyInSearch := fun _ => rfl
      constructUnbuilt := fun h => absurd h hc
      constructOperand := fun h => absurd h hc
      searchBuilt := fun _ => rfl
      builtForPoly := fun _ h => (Option.some.inj h).symm
      searchProgress := fun o h => by
        refine ⟨out, ?_, ?_⟩
        · rw [ho] at h; exact (Option.some.inj h).symm.trans (by simp [atFinish, builtFor, State.reset])
        · rw [atFinish, BitVec.toNat_ofNat, Nat.mod_eq_of_lt hl]; rfl
      wordsBelow := fun _ h => nomatch h }
  refine ⟨⟨key _ _ (by decide) ?_ rfl, key _ _ (by decide) (length_crackSeq_lt _ _) rfl⟩, fun _ _ => ⟨rfl, rfl⟩⟩
  rw [lookupWords, List.length_map]
  exact (length_lookupSeq_le _ _).trans_lt (by decide)

theorem held_holding : (holding .crack).held Config.outDepth ∧ (holding .lookup).held Config.outDepth :=
  ⟨⟨rfl, List.cons_ne_nil _ _, List.length_replicate ..⟩, ⟨rfl, List.cons_ne_nil _ _, List.length_replicate ..⟩⟩

theorem witness_HoldLiftedOnlyByPopOrReset :
    (holding .crack).held Config.outDepth ∧ (holding .crack).sched.head? ≠ some .reset ∧
    (∀ rest, (holding .crack).hostq ≠ .access (.read 0x10 4) :: rest) ∧ (∀ rest, (holding .crack).hostq ≠ .drain :: rest) ∧
    (queued (holding .crack) (.access (.read 0x10 4))).held Config.outDepth ∧
    (queued (holding .crack) .drain).held Config.outDepth ∧
    ({ holding .crack with sched := [.reset] } : State).sched.head? = some .reset :=
  ⟨held_holding.1, by decide, (fun _ h => nomatch h), (fun _ h => nomatch h), held_holding.1, held_holding.1, rfl⟩

/-- A push keeps the sequence; a pop hands its head over. -/
theorem witness_BusyStepConservesOutput :
    ((pushing .crack).busy = true ∧ (pushing .crack).sched.head? ≠ some .reset ∧ ∃ t, step (pushing .crack) = .next t) ∧
    ((queued (pushing .crack) (.access (.read 0x10 4))).busy = true ∧
      (queued (pushing .crack) (.access (.read 0x10 4))).sched.head? ≠ some .reset ∧
      ∃ t, step (queued (pushing .crack) (.access (.read 0x10 4))) = .next t) :=
  ⟨⟨rfl, by decide, _, rfl⟩, rfl, by decide, _, rfl⟩

theorem witness_FittingSearchCompletes :
    (busyWith .crack).searching = true ∧ (pushing .lookup).searching = true ∧ (pushing .lookup).sched = [] ∧
    (pushing .lookup).outq.length + (pushing .lookup).pend.length ≤ Config.outDepth := ⟨rfl, rfl, rfl, outDepth_pos⟩

theorem witness_DrainingHostLetsSearchComplete :
    (holding .crack).searching = true ∧ (holding .crack).sched = [] ∧
    ({ holding .crack with hostq := [.drain] } : State).hostq = .drain :: [] := ⟨rfl, rfl, rfl⟩

/-- Built arrays stay under a command that is not CONSTRUCT, and an accepted CONSTRUCT discards them; unbuilt ones stay
unbuilt under the issue of a CONSTRUCT, which writes POLY, and its completion builds them. -/
theorem witness_BuiltArraysAreFrozen :
    (built 0#32).index = some tiny ∧ (built 0#32).cur ≠ .construct ∧
    (∃ t, step (queued (built 0#32) (.access (.write 0x00 4 2#32))) = .next t ∧ t.index = some tiny) ∧
    (∃ t, step (queued (built 0#32) (.access (.write 0x00 4 1#32))) = .next t ∧ t.index = none) ∧
    (State.reset.index = none ∧
      ∃ t, step (queued State.reset (.access (.write 0x00 4 1#32))) = .next t ∧ t.index = none ∧ t.poly ≠ 0#32) ∧
    ((busyWith .construct).cur = .construct ∧ (busyWith .construct).sched.head? ≠ some .reset ∧
      ∃ t, step (busyWith .construct) = .next t ∧ t.index = some (construction 0#32)) :=
  ⟨rfl, by decide, ⟨_, rfl, rfl⟩, ⟨_, rfl, rfl⟩, ⟨rfl, _, rfl, rfl, by decide⟩, rfl, by decide, _, rfl, rfl⟩

/-- Steps that change each register. -/
theorem witness_OnlyNamedCommandsWriteEachRegister :
    (∃ t, step (queued State.reset (.access (.write 0x04 4 9#32))) = .next t ∧ t.cmdArg ≠ State.reset.cmdArg) ∧
    (∃ t, step (queued State.reset (.access (.write 0x00 4 0#32))) = .next t ∧ t.err ≠ State.reset.err) ∧
    (∃ t, step (queued State.reset (.access (.write 0x00 4 4#32))) = .next t ∧ t.hashAcc ≠ State.reset.hashAcc) ∧
    (∃ t, step (queued State.reset (.access (.write 0x00 4 0x11#32))) = .next t ∧ t.result ≠ State.reset.result) ∧
    (∃ t, step (queued State.reset (.access (.write 0x00 4 1#32))) = .next t ∧ t.poly ≠ State.reset.poly ∧
      t.opnd ≠ State.reset.opnd) ∧
    (∃ t, step (queued (built 0#32) (.access (.write 0x00 4 5#32))) = .next t ∧ t.tgt ≠ (built 0#32).tgt) ∧
    (∃ t, step (queued { built 0#32 with candCount := 1#32 } (.access (.write 0x00 4 0x15#32))) = .next t ∧
      t.candCount ≠ 1#32) ∧
    (∃ t, step (pushing .crack) = .next t ∧ t.candCount ≠ (pushing .crack).candCount) :=
  ⟨⟨_, rfl, by decide⟩, ⟨_, rfl, by decide⟩, ⟨_, rfl, by decide⟩, ⟨_, rfl, by decide⟩, ⟨_, rfl, by decide, by decide⟩,
    ⟨_, rfl, by decide⟩, ⟨_, rfl, by decide⟩, ⟨_, rfl, by decide⟩⟩

theorem witness_IllegalAccessIsBusFault :
    ((1 ≠ 4 ∨ 0 % 4 ≠ 0 ∨ 0x24 ≤ 0) ∧ (4 ≠ 4 ∨ 2 % 4 ≠ 0 ∨ 0x24 ≤ 2) ∧ (4 ≠ 4 ∨ 0x24 % 4 ≠ 0 ∨ 0x24 ≤ 0x24)) ∧
    ¬(4 ≠ 4 ∨ 0x20 % 4 ≠ 0 ∨ 0x24 ≤ 0x20) := by decide

theorem witness_OutDataReadPops :
    State.reset.outq = [] ∧ ({ State.reset with outq := [1#30] } : State).outq = 1#30 :: [] := ⟨rfl, rfl⟩

theorem witness_ReadOnlyWritesAreIgnored :
    0x08 ∈ [0x08, 0x0C, 0x10, 0x14, 0x18, 0x1C, 0x20] ∧ 0x20 ∈ [0x08, 0x0C, 0x10, 0x14, 0x18, 0x1C, 0x20] := by decide

/-- The invariant at reset, and a step of a built machine that issues a CRACK. -/
theorem witness_StepKeepsInvariant :
    Inv { builtFor 1#32 with hostq := [.access (.write 0x00 4 5#32)], sched := [.host] } ∧
    ∃ t, step { builtFor 1#32 with hostq := [.access (.write 0x00 4 5#32)], sched := [.host] } = .next t ∧
      t.cur = .crack :=
  ⟨{ inv_builtFor 1#32 with }, _, rfl, rfl⟩

theorem witness_AssemblerLinesExpand :
    (0 < 2 ^ 32 ∧ 4294967295 < 2 ^ 32) ∧ operandForm .digest = .word ∧ operandForm .tableRead = .byte ∧
    operandForm .crack = .none := by decide

theorem witness_AssembledCommandRuns :
    State.reset.cur = .none ∧ State.reset.sched = [] ∧
    ({ State.reset with hostq := commandOps .digest (some 1#32) ++ [] } : State).hostq =
      commandOps .digest (some 1#32) ++ [] := ⟨rfl, rfl, rfl⟩

theorem witness_AssembledHashParses :
    State.reset.cur = .none ∧ State.reset.sched = [] ∧
    ({ State.reset with hostq := lineOps (.hash [0x31#8]) ++ [.poll] } : State).hostq =
      lineOps (.hash [0x31#8]) ++ [.poll] := ⟨rfl, rfl, rfl⟩

end Sys2Proof.Tests
end

section
/-! Proofs of the statements about the state (10_state.md), over three layers that other proofs can use: the decoder's
converse, the classes of a command's effect, and the moves of a step that is not a reset. -/

namespace Sys2Proof.Machine

/-! ### The decoder: an OP word that decodes to a command is that command's word -/

theorem eq_opc_of_decodeOpc {o : Byte} {i : Instr} (h : decodeOpc o = .ok i) : o = i.opc := by
  revert h
  fun_cases decodeOpc o <;> intro h <;> cases h <;> assumption

/-- An OP word is its field RSV above its field OPC (30_encoding.md R81). -/
theorem rsvField_append_opcField (v : Word) : rsvField v ++ opcField v = v :=
  BitVec.extractLsb'_append_extractLsb' (w := 24) (len := 8)

theorem eq_encode_of_decode {v : Word} {i : Instr} (h : decode v = .ok i) : v = encode i := by
  unfold decode at h
  split at h
  · next hrsv => rw [encode, ← eq_opc_of_decodeOpc h, ← hrsv, rsvField_append_opcField]
  · cases h

theorem decode_encode (i : Instr) : decode (encode i) = .ok i := by cases i <;> decide

theorem encode_inj {i j : Instr} : encode i = encode j ↔ i = j where
  mp h := Except.ok.inj ((decode_encode i).symm.trans (h ▸ decode_encode j))
  mpr := congrArg encode

/-! ### Commands -/

theorem issue_has_next (s : State) (effect : State → State) : ∃ t, issue s effect = .next t := by
  cases hb : s.busy with
  | true => exact ⟨_, issue_of_busy effect hb⟩
  | false => exact ⟨_, issue_of_idle effect hb⟩

theorem issueBuilt_has_next (s : State) (effect : Index → State → State) : ∃ t, issueBuilt s effect = .next t := by
  cases hb : s.busy with
  | true => exact ⟨_, issueBuilt_of_busy effect hb⟩
  | false =>
    cases hi : s.index with
    | none => exact ⟨_, issueBuilt_of_unbuilt effect hb hi⟩
    | some ix => exact ⟨_, issueBuilt_of_built effect hb hi⟩

/-- A command always answers with a next state: its effect, or a refusal (60_exceptions.md R248). -/
theorem exec_has_next (i : Instr) (s : State) : ∃ t, exec i s = .next t := by
  cases i with
  | construct | hashReset | hashChar | hashLoad | resultLoad =>
    simp only [exec_construct, exec_hashReset, exec_hashChar, exec_hashLoad, exec_resultLoad, issue_has_next]
  | crack | tableRead | crcUpdate | digest | digestPad | lookup =>
    simp only [exec_crack, exec_tableRead, exec_crcUpdate, exec_digest, exec_digestPad, exec_lookup,
      issueBuilt_has_next]

/-- The five classes of an accepted command's effect: the start of a construction, a new HASH_ACC, a new RESULT, and the
starts of the two searches. -/
theorem accepted_cases {i : Instr} {s t : State} (h : Accepted i s t) :
    (i = .construct ∧ t = s.accept.beginConstruct s.cmdArg) ∨
      ((i = .hashReset ∨ i = .hashChar ∨ i = .hashLoad) ∧ ∃ w, t = s.accept.setHashAcc w) ∨
      ((i = .tableRead ∨ i = .resultLoad ∨ i = .crcUpdate ∨ i = .digest ∨ i = .digestPad) ∧
        ∃ w, t = s.accept.setResult w) ∨
      (i = .lookup ∧ ∃ ws, t = (s.accept.latchOpnd s.cmdArg).beginSearch .lookup ws) ∨
      (i = .crack ∧ ∃ w ws, t = (s.accept.latchTgt w).beginSearch .crack ws) := by
  cases i with
  | construct => exact .inl ⟨rfl, h⟩
  | hashReset | hashChar | hashLoad => exact .inr (.inl ⟨by simp, _, h⟩)
  | resultLoad => exact .inr (.inr (.inl ⟨by simp, _, h⟩))
  | tableRead | crcUpdate | digest | digestPad =>
    obtain ⟨ix, -, h⟩ := h
    exact .inr (.inr (.inl ⟨by simp, _, h⟩))
  | lookup =>
    obtain ⟨ix, -, h⟩ := h
    exact .inr (.inr (.inr (.inl ⟨rfl, _, h⟩)))
  | crack =>
    obtain ⟨ix, -, h⟩ := h
    exact .inr (.inr (.inr (.inr ⟨rfl, _, _, h⟩)))

/-! ### The moves of a step -/

/-- `s` with its turn taken, the host's operations left at `ops` and `r` on the bus: nothing of the CORE differs. -/
abbrev State.afterTurn (s : State) (ops : List HostOp) (r : Response) : State :=
  ((s.setSched s.sched.tail).setHostq ops).respond r

/-- What a step that is not a reset can do, by name: the engine's three steps, and the host's accesses by what they do to
the CORE. -/
inductive Move (s : State) : State → Prop
  /-- ConstructDone (44_engine_control.md R225). -/
  | completion (hcur : s.cur = .construct) : Move s (constructDone (s.afterTurn s.hostq s.resp))
  /-- Finish (R230). -/
  | finish (hsearch : s.searching = true) (hpend : s.pend = []) : Move s (s.afterTurn s.hostq s.resp).endSearch
  /-- Push (R228, R229). -/
  | push {v : OutWord} {rest : List OutWord} (hsearch : s.searching = true) (hpend : s.pend = v :: rest)
      (hroom : s.outq.length < Config.outDepth) :
      Move s (((s.afterTurn s.hostq s.resp).setPend rest).push v)
  /-- A wait, or an access that only answers (20_memory.md R53, R54; 70_reset_and_hazards.md R272). -/
  | quiet (ops : List HostOp) (r : Response) : Move s (s.afterTurn ops r)
  /-- The pop of an OUT_DATA read (44_engine_control.md R231). -/
  | pop {op : HostOp} {rest : List HostOp} (ops : List HostOp) (hq : s.hostq = op :: rest)
      (hop : op = .access (.read 0x10 4) ∨ op = .drain) : Move s (s.pop.afterTurn ops (.data s.outData))
  /-- A write of CMD_ARG (10_state.md R24). -/
  | stage {v : Word} {rest : List HostOp} (hq : s.hostq = .access (.write 0x04 4 v) :: rest) :
      Move s ((s.afterTurn rest .done).setCmdArg v)
  /-- A refused write of CMD_OP (60_exceptions.md R240, R242). -/
  | refusal {v : Word} {rest : List HostOp} (code : ErrCode) (hq : s.hostq = .access (.write 0x00 4 v) :: rest) :
      Move s ((s.afterTurn rest .done).refuse code)
  /-- An accepted write of CMD_OP (44_engine_control.md R220). -/
  | issue {i : Instr} {rest : List HostOp} {t : State} (hq : s.hostq = .access (.write 0x00 4 (encode i)) :: rest)
      (hidle : s.cur = .none) (hacc : Accepted i (s.afterTurn rest .done) t) : Move s t

theorem searching_eq_true_iff (s : State) : s.searching = true ↔ s.cur = .lookup ∨ s.cur = .crack := by
  unfold State.searching; cases s.cur <;> simp

theorem move_of_engineStep {s t : State}
    (h : engineStep Config.outDepth (s.setSched s.sched.tail) = some t) : Move s t := by
  obtain ⟨hcur, rfl⟩ | ⟨hcur, hpend, rfl⟩ | ⟨hcur, hroom, v, rest, hpend, rfl⟩ := engineStep_cases h
  · exact .completion hcur
  · exact .finish ((searching_eq_true_iff s).2 hcur) hpend
  · exact .push ((searching_eq_true_iff s).2 hcur) hpend hroom

theorem move_of_issueCommand {s t : State} {v : Word} {rest : List HostOp}
    (hq : s.hostq = .access (.write 0x00 4 v) :: rest)
    (h : issueCommand v (s.afterTurn rest .done) = .next t) : Move s t := by
  obtain ⟨i, hv, he⟩ | ⟨-, -, -, he⟩ | ⟨-, -, -, he⟩ := issueCommand_cases v (s.afterTurn rest .done)
  · obtain rfl := eq_encode_of_decode hv
    obtain ⟨-, rfl⟩ | ⟨-, -, -, rfl⟩ | ⟨hidle, hacc⟩ := exec_next_cases (he.symm.trans h)
    iterate 2 exact .refusal _ hq
    · exact .issue hq ((busy_eq_false_iff s).1 hidle) hacc
  all_goals
    obtain rfl := Host.Outcome.next.inj (he.symm.trans h)
    exact .refusal _ hq

theorem move_of_hostOp {s t : State} {op : HostOp} {rest : List HostOp} (hq : s.hostq = op :: rest)
    (h : hostOp Config.outDepth op ((s.setSched s.sched.tail).setHostq rest) = .next t) : Move s t := by
  obtain ⟨r, ops, he⟩ | ⟨hop, ops, he⟩ | ⟨v, rfl, he⟩ | ⟨v, rfl, he⟩ :=
    hostOp_cases Config.outDepth op ((s.setSched s.sched.tail).setHostq rest)
  · obtain rfl := Host.Outcome.next.inj (he.symm.trans h)
    exact .quiet ops r
  · obtain rfl := Host.Outcome.next.inj (he.symm.trans h)
    exact .pop ops hq hop
  · obtain rfl := Host.Outcome.next.inj (he.symm.trans h)
    exact .stage hq
  · exact move_of_issueCommand hq (he.symm.trans h)

/-- Every step that is not a reset is one of the moves. -/
theorem move_of_step {s t : State} (hr : s.sched.head? ≠ some .reset) (h : step s = .next t) : Move s t := by
  obtain ⟨ts, hts, -⟩ | ⟨-, ⟨u, hu, he⟩ | ⟨op, rest, hq, he⟩ | ⟨-, -, he⟩⟩ := stepWith_cases ((step_eq s).symm.trans h)
  · exact absurd (by simp [hts]) hr
  · obtain rfl := Host.Outcome.next.inj he
    exact move_of_engineStep hu
  · exact move_of_hostOp hq he.symm
  · obtain rfl := Host.Outcome.next.inj he
    exact .quiet s.hostq s.resp

/-! ### Which step writes what -/

/-- What a step can do to the arrays and POLY: nothing, the completion of a CONSTRUCT, or the issue of one. -/
theorem Move.arrays_cases {s t : State} (m : Move s t) :
    (t.index = s.index ∧ t.poly = s.poly) ∨
      (s.cur = .construct ∧
        t = { s with index := some (construction s.poly), cur := .none, sched := s.sched.tail }) ∨
      (s.cur = .none ∧ (∃ rest, s.hostq = .access (.write 0x00 4 (encode .construct)) :: rest) ∧
        t.cur = .construct ∧ t.index = none) := by
  cases m with
  | completion hcur => exact .inr (.inl ⟨hcur, rfl⟩)
  | issue hq hidle hacc =>
    obtain ⟨rfl, rfl⟩ | ⟨-, w, rfl⟩ | ⟨-, w, rfl⟩ | ⟨-, ws, rfl⟩ | ⟨-, w, ws, rfl⟩ := accepted_cases hacc
    · exact .inr (.inr ⟨hidle, ⟨_, hq⟩, by simp⟩)
    all_goals exact .inl (by simp)
  | finish | push | quiet | pop | stage | refusal => exact .inl (by simp)

/-- Settles O48: of the three things a step can do to the arrays and POLY, the completion needs CUR = CONSTRUCT, and the
issue of a CONSTRUCT needs CUR = NONE. -/
theorem builtArraysAreFrozen : Obligations.BuiltArraysAreFrozen := by
  unfold Obligations.BuiltArraysAreFrozen
  refine ⟨fun s t ix hix hcur hr h => ?_, fun s t hs hr h => ?_⟩
  · obtain ⟨hi, hp⟩ | ⟨hc, -⟩ | ⟨-, ⟨rest, hq⟩, hc, -⟩ := (move_of_step hr h).arrays_cases
    · exact .inl ⟨hi.trans hix, hp⟩
    · exact absurd hc hcur
    · exact .inr ⟨rest, hq, hc⟩
  · obtain ⟨hi, hp⟩ | ⟨hc, rfl⟩ | ⟨hidle, ⟨rest, hq⟩, hc, hi⟩ := (move_of_step hr h).arrays_cases
    · exact ⟨.inl hi, .inl hp⟩
    · exact ⟨.inr ⟨hc, rfl⟩, .inl rfl⟩
    · have hnone : s.index = none := hs.resolve_right (by simp [hidle])
      exact ⟨.inl (hi.trans hnone.symm), .inr ⟨rest, hq, hc⟩⟩

/-- Settles O49: move by move, the registers that differ are those the clauses name. -/
theorem onlyNamedCommandsWriteEachRegister : Obligations.OnlyNamedCommandsWriteEachRegister := by
  unfold Obligations.OnlyNamedCommandsWriteEachRegister
  intro s t hr h
  cases move_of_step hr h with
  | completion => simp [constructDone]
  | finish | quiet | pop => simp
  | push hsearch => simp [hsearch]
  | stage hq => simp [hq]
  | refusal code hq => simp [hq]
  | issue hq hidle hacc =>
    obtain ⟨rfl, rfl⟩ | ⟨hi, w, rfl⟩ | ⟨hi, w, rfl⟩ | ⟨rfl, ws, rfl⟩ | ⟨rfl, w, ws, rfl⟩ := accepted_cases hacc
    · simp [hq, encode_inj]
    · simp [hq, encode_inj, hi]
    · simp [hq, encode_inj, hi]
    · simp [hq, encode_inj]
    · simp [hq, encode_inj]

/-! ### The fields of STATUS (10_state.md R25) -/

theorem status_bit_busy (depth : Nat) (s : State) : (s.status depth).getLsbD 0 = s.busy := by
  simp only [State.status, BitVec.getLsbD_append]; simp

theorem status_bit_built (depth : Nat) (s : State) : (s.status depth).getLsbD 1 = s.built := by
  simp only [State.status, BitVec.getLsbD_append]; simp

theorem status_field_err (depth : Nat) (s : State) : (s.status depth).extractLsb' 2 3 = s.err.code := by
  rw [State.status, BitVec.extractLsb'_append_eq_of_le (by decide), BitVec.extractLsb'_append_eq_of_le (by decide)]
  exact BitVec.extractLsb'_append_eq_right

theorem status_bit_outNonempty (depth : Nat) (s : State) : (s.status depth).getLsbD 5 = s.outNonempty := by
  simp only [State.status, BitVec.getLsbD_append]; simp

theorem status_bit_outFull (depth : Nat) (s : State) : (s.status depth).getLsbD 6 = s.outFull depth := by
  simp only [State.status, BitVec.getLsbD_append]; simp

theorem status_field_reserved (depth : Nat) (s : State) : (s.status depth).extractLsb' 7 25 = 0#25 := by
  rw [State.status, BitVec.extractLsb'_append_eq_of_le (by decide), BitVec.extractLsb'_append_eq_of_le (by decide),
    BitVec.extractLsb'_append_eq_of_le (by decide), BitVec.extractLsb'_append_eq_of_le (by decide),
    BitVec.extractLsb'_append_eq_of_le (by decide)]
  decide

theorem busy_eq_decide (s : State) : s.busy = decide (s.cur ≠ .none) := by
  unfold State.busy; cases s.cur <;> rfl

/-- Settles O55: the fields of STATUS, each read off the state. -/
theorem statusBitsAsLaidOut : Obligations.StatusBitsAsLaidOut := by
  unfold Obligations.StatusBitsAsLaidOut
  intro depth s
  refine ⟨(status_bit_busy depth s).trans (busy_eq_decide s), status_bit_built depth s, ?_,
    status_bit_outNonempty depth s, status_bit_outFull depth s, status_field_reserved depth s⟩
  rw [status_field_err]
  cases s.err <;> rfl

/-! ### CMD_ARG, and the state after reset -/

/-- Settles O12: only OUT_FULL depends on OUT_DEPTH, and an empty FIFO is not full. -/
theorem resetLeavesSpecifiedValues : Obligations.ResetLeavesSpecifiedValues := by
  unfold Obligations.ResetLeavesSpecifiedValues
  refine ⟨rfl, fun depth hdepth => ?_, rfl, rfl, rfl, rfl, rfl, rfl, rfl, rfl, rfl, rfl, fun depth => rfl⟩
  have hfull : State.reset.outFull depth = false := decide_eq_false hdepth.ne
  rw [State.status, hfull]; rfl

/-- Settles O54: a refused command changes only ERR, and none of the five classes of effect writes CMD_ARG. -/
theorem cmdArgStoresTheOperand : Obligations.CmdArgStoresTheOperand := by
  unfold Obligations.CmdArgStoresTheOperand
  refine ⟨fun depth v s => rfl, fun i s => ?_⟩
  obtain ⟨t, h⟩ := exec_has_next i s
  refine ⟨t, h, ?_⟩
  obtain ⟨-, rfl⟩ | ⟨-, -, -, rfl⟩ | ⟨-, hacc⟩ := exec_next_cases h
  iterate 2 exact State.refuse_cmdArg s _
  · obtain ⟨-, rfl⟩ | ⟨-, w, rfl⟩ | ⟨-, w, rfl⟩ | ⟨-, ws, rfl⟩ | ⟨-, w, ws, rfl⟩ := accepted_cases hacc <;> simp

/-- Settles O56: an idle, unbuilt CORE with nothing queued or pending. -/
theorem invariantHoldsAtReset : Obligations.InvariantHoldsAtReset where
  fifoBounded := Nat.zero_le _
  levelCounted := Nat.zero_le _
  pendOnlyInSearch _ := rfl
  constructUnbuilt _ := rfl
  constructOperand _ := rfl
  searchBuilt h := nomatch h
  builtForPoly _ h := nomatch h
  searchProgress _ h := nomatch h
  wordsBelow _ h := nomatch h

end Sys2Proof.Machine
end

section
/-! Proofs of the statements about the register window and the order of moves (20_memory.md), over two layers that other
proofs can use: the legality of an access with what each access answers, and whom a turn lets move. -/

namespace Sys2Proof.Machine

/-! ### Legal accesses and registers (20_memory.md R51, R52) -/

theorem legalOffset_eq_true_iff (off size : Nat) :
    legalOffset off size = true ↔ size = 4 ∧ off % 4 = 0 ∧ off < 0x24 := by
  simp [legalOffset, and_assoc]

theorem legalOffset_eq_false_iff (off size : Nat) :
    legalOffset off size = false ↔ size ≠ 4 ∨ off % 4 ≠ 0 ∨ 0x24 ≤ off := by
  rw [← Bool.not_eq_true, legalOffset_eq_true_iff]; omega

/-- The legal accesses are those of the nine registers. -/
theorem mem_registers_of_legalOffset {off size : Nat} (h : legalOffset off size = true) :
    size = 4 ∧ off ∈ [0x00, 0x04, 0x08, 0x0C, 0x10, 0x14, 0x18, 0x1C, 0x20] := by
  obtain ⟨hsize, halign, hlt⟩ := (legalOffset_eq_true_iff off size).1 h
  refine ⟨hsize, ?_⟩
  simp only [List.mem_cons, List.not_mem_nil, or_false]
  omega

/-! ### Reads (R53, R57) -/

theorem readWindow_of_legalOffset (depth : Nat) {off size : Nat} (s : State) (h : legalOffset off size = true) :
    ∃ w t, readWindow depth off s = some (w, t) := by
  obtain ⟨-, hoff⟩ := mem_registers_of_legalOffset h
  simp only [List.mem_cons, List.not_mem_nil, or_false] at hoff
  obtain rfl | rfl | rfl | rfl | rfl | rfl | rfl | rfl | rfl := hoff <;> exact ⟨_, _, rfl⟩

theorem legalOffset_of_readWindow {depth off : Nat} {s : State} {p : Word × State}
    (h : readWindow depth off s = some p) : legalOffset off 4 = true := by
  revert h
  fun_cases readWindow depth off s with
  | case10 => intro h; cases h
  | _ => intro; rfl

theorem memRead_of_readWindow {depth off : Nat} {s t : State} {w : Word}
    (h : readWindow depth off s = some (w, t)) : memRead depth off 4 s = t.respond (.data w) := by
  simp [memRead, h]

theorem memRead_of_illegal {depth off size : Nat} {s : State} (h : legalOffset off size = false) :
    memRead depth off size s = s.respond .busFault := by
  fun_cases memRead depth off size s with
  | case1 hsize w t hw =>
    subst hsize
    exact absurd (legalOffset_of_readWindow hw) (Bool.eq_false_iff.1 h)
  | case2 | case3 => rfl

theorem memRead_of_legal {depth off size : Nat} {s : State} (h : legalOffset off size = true) :
    ∃ w, (memRead depth off size s).resp = .data w := by
  obtain ⟨rfl, -⟩ := mem_registers_of_legalOffset h
  obtain ⟨w, t, hw⟩ := readWindow_of_legalOffset depth s h
  exact ⟨w, by rw [memRead_of_readWindow hw, State.respond_resp]⟩

/-! ### Writes (R53, R54) -/

theorem memWrite_of_illegal {off size : Nat} {v : Word} {s : State} (h : legalOffset off size = false) :
    memWrite off size v s = .next (s.respond .busFault) := by
  fun_cases memWrite off size v s with
  | case10 | case11 => rfl
  | _ hsize =>
    subst hsize
    exact absurd h (by decide)

theorem memWrite_readOnly {off : Nat} (v : Word) (s : State)
    (h : off ∈ [0x08, 0x0C, 0x10, 0x14, 0x18, 0x1C, 0x20]) : memWrite off 4 v s = .next (s.respond .done) := by
  simp only [List.mem_cons, List.not_mem_nil, or_false] at h
  obtain rfl | rfl | rfl | rfl | rfl | rfl | rfl := h <;> rfl

/-- No command touches the bus's answer. -/
theorem exec_next_resp {i : Instr} {s t : State} (h : exec i s = .next t) : t.resp = s.resp := by
  obtain ⟨-, rfl⟩ | ⟨-, -, -, rfl⟩ | ⟨-, hacc⟩ := exec_next_cases h
  iterate 2 exact State.refuse_resp s _
  · obtain ⟨-, rfl⟩ | ⟨-, w, rfl⟩ | ⟨-, w, rfl⟩ | ⟨-, ws, rfl⟩ | ⟨-, w, ws, rfl⟩ := accepted_cases hacc <;> simp

/-- The issue of any word has a next state, a refusal included, and leaves the bus's answer. -/
theorem issueCommand_has_next (v : Word) (s : State) : ∃ t, issueCommand v s = .next t ∧ t.resp = s.resp := by
  obtain ⟨i, -, h⟩ | ⟨-, -, -, h⟩ | ⟨-, -, -, h⟩ := issueCommand_cases v s
  · obtain ⟨t, ht⟩ := exec_has_next i s
    exact ⟨t, h.trans ht, exec_next_resp ht⟩
  all_goals exact ⟨_, h, State.refuse_resp s _⟩

theorem memWrite_of_legal {off size : Nat} {v : Word} {s : State} (h : legalOffset off size = true) :
    ∃ t, memWrite off size v s = .next t ∧ t.resp = .done := by
  obtain ⟨rfl, hoff⟩ := mem_registers_of_legalOffset h
  obtain rfl | hoff := List.mem_cons.1 hoff
  · exact issueCommand_has_next v (s.respond .done)
  obtain rfl | hoff := List.mem_cons.1 hoff
  · exact ⟨_, memWrite_cmdArg v s, rfl⟩
  · exact ⟨_, memWrite_readOnly v s hoff, rfl⟩

/-! ### The host's accesses -/

theorem hostOp_read (depth off size : Nat) (s : State) :
    hostOp depth (.access (.read off size)) s = .next (memRead depth off size s) := rfl

theorem hostOp_write (depth off size : Nat) (v : Word) (s : State) :
    hostOp depth (.access (.write off size v)) s = memWrite off size v s := rfl

theorem hostOp_read_of_readWindow {depth off : Nat} {s t : State} {w : Word}
    (h : readWindow depth off s = some (w, t)) :
    hostOp depth (.access (.read off 4)) s = .next (t.respond (.data w)) := by
  rw [hostOp_read, memRead_of_readWindow h]

/-- Settles O50: the condition is the model's `legalOffset`; an illegal access only answers BusFault, and a legal one
reaches one of the nine registers. -/
theorem illegalAccessIsBusFault : Obligations.IllegalAccessIsBusFault := by
  unfold Obligations.IllegalAccessIsBusFault
  intro depth off size v s
  rw [← legalOffset_eq_false_iff, Bool.not_eq_false]
  refine ⟨fun hillegal => ?_, fun hlegal => ?_⟩
  · exact ⟨congrArg _ (memRead_of_illegal hillegal), memWrite_of_illegal hillegal⟩
  · obtain ⟨w, hw⟩ := memRead_of_legal (depth := depth) (s := s) hlegal
    exact ⟨⟨_, w, hostOp_read depth off size s, hw⟩, memWrite_of_legal hlegal⟩

/-- Settles O51: at each of the eight offsets the window answers the register's value and the state as it was. -/
theorem registerReadsChangeNothing : Obligations.RegisterReadsChangeNothing := by
  unfold Obligations.RegisterReadsChangeNothing
  intro depth s
  have read {off : Nat} {w : Word} (h : readWindow depth off s = some (w, s)) :
      hostOp depth (.access (.read off 4)) s = .next { s with resp := .data w } := hostOp_read_of_readWindow h
  exact ⟨read rfl, read rfl, read rfl, read rfl, read rfl, read rfl, read rfl, read rfl⟩

/-- Settles O53: CMD_OP's place in the window holds 0, and a write of a read-only register only answers. -/
theorem readOnlyWritesAreIgnored : Obligations.ReadOnlyWritesAreIgnored := by
  unfold Obligations.ReadOnlyWritesAreIgnored
  intro depth v s
  exact ⟨hostOp_read_of_readWindow rfl, fun off hoff => memWrite_readOnly v s hoff⟩

/-! ### Whom a turn lets move (R61) -/

theorem setSched_nil_of_noTurn {s : State} (h : s.sched = []) : s.setSched [] = s := by
  rw [State.setSched, ← h]

theorem stepWith_eq_hostFirst {depth : Nat} {s : State} (h : s.sched.head? = some .host) :
    stepWith depth s = hostFirst depth (s.setSched s.sched.tail) :=
  stepWith_hostTurn (List.eq_cons_of_mem_head? h)

/-- Without a turn, as on its own turn, the engine is preferred. -/
theorem stepWith_eq_engineFirst {depth : Nat} {s : State} (h : s.sched = [] ∨ s.sched.head? = some .engine) :
    stepWith depth s = engineFirst depth (s.setSched s.sched.tail) := by
  obtain h | h := h
  · rw [stepWith_noTurn h, h, List.tail_nil, setSched_nil_of_noTurn h]
  · exact stepWith_engineTurn (List.eq_cons_of_mem_head? h)

/-- A turn that is not reset's prefers the host or the engine. -/
theorem head_cases_of_ne_reset {ts : List Turn} (h : ts.head? ≠ some .reset) :
    ts.head? = some .host ∨ ts = [] ∨ ts.head? = some .engine := by
  cases ts with
  | nil => exact .inr (.inl rfl)
  | cons t ts => cases t <;> simp_all

theorem hostFirst_of_hostq {depth : Nat} {s : State} {op : HostOp} {rest : List HostOp} (h : s.hostq = op :: rest) :
    hostFirst depth s = hostOp depth op (s.setHostq rest) := by
  rw [hostFirst, hostStep_some h, firstOf]

theorem hostFirst_of_noOp {depth : Nat} {s t : State} (hq : s.hostq = []) (h : engineStep depth s = some t) :
    hostFirst depth s = .next t := by
  rw [hostFirst, hostStep_none hq, engineMove, h]; rfl

theorem engineFirst_of_engineStep {depth : Nat} {s t : State} (h : engineStep depth s = some t) :
    engineFirst depth s = .next t := by
  rw [engineFirst, engineMove, h]; rfl

theorem engineFirst_of_noStep {depth : Nat} {s : State} {op : HostOp} {rest : List HostOp}
    (h : engineStep depth s = none) (hq : s.hostq = op :: rest) :
    engineFirst depth s = hostOp depth op (s.setHostq rest) := by
  rw [engineFirst, engineMove, h, hostStep_some hq]; rfl

theorem searchStep_of_noWord (depth : Nat) {s : State} (hpend : s.pend = []) :
    searchStep depth s = some s.endSearch := by
  rw [searchStep, hpend]

theorem searchStep_of_room {depth : Nat} {s : State} {v : OutWord} {rest : List OutWord}
    (hpend : s.pend = v :: rest) (hroom : s.outq.length < depth) :
    searchStep depth s = some ((s.setPend rest).push v) := by
  simp [searchStep, hpend, hroom]

theorem searchStep_of_full {depth : Nat} {s : State} {v : OutWord} {rest : List OutWord}
    (hpend : s.pend = v :: rest) (hfull : ¬s.outq.length < depth) : searchStep depth s = none := by
  simp [searchStep, hpend, hfull]

theorem searchStep_setSched (depth : Nat) (s : State) (ts : List Turn) :
    searchStep depth (s.setSched ts) = (searchStep depth s).map (·.setSched ts) := by
  cases hpend : s.pend with
  | nil => rw [searchStep_of_noWord depth hpend]; exact searchStep_of_noWord depth hpend
  | cons v rest =>
    by_cases hroom : s.outq.length < depth
    · rw [searchStep_of_room hpend hroom]; exact searchStep_of_room hpend hroom
    · rw [searchStep_of_full hpend hroom]; exact searchStep_of_full hpend hroom

/-- The engine neither reads nor takes turns. -/
theorem engineStep_setSched (depth : Nat) (s : State) (ts : List Turn) :
    engineStep depth (s.setSched ts) = (engineStep depth s).map (·.setSched ts) := by
  simp only [engineStep, State.setSched_cur]
  cases s.cur with
  | none | construct => rfl
  | lookup | crack => exact searchStep_setSched depth s ts

/-- Settles O8: a turn prefers the host, or prefers an engine that has no step. -/
theorem hostTurnPerformsNextOperation : Obligations.HostTurnPerformsNextOperation := by
  unfold Obligations.HostTurnPerformsNextOperation
  intro s op rest hq hturn
  have hostMoves (h : s.sched.head? = some .host) :
      step s = hostOp Config.outDepth op ((s.setSched s.sched.tail).setHostq rest) :=
    (stepWith_eq_hostFirst h).trans (hostFirst_of_hostq hq)
  obtain h | ⟨hreset, hidle⟩ := hturn
  · exact hostMoves h
  · obtain h | h := head_cases_of_ne_reset hreset
    · exact hostMoves h
    · have hnone : engineStep Config.outDepth (s.setSched s.sched.tail) = none := by
        rw [engineStep_setSched, hidle, Option.map_none]
      exact (stepWith_eq_engineFirst h).trans (engineFirst_of_noStep hnone hq)

/-- Settles O9: a turn prefers the engine, or prefers a host with nothing to do; the step is the one the engine would
take with the turn still there. -/
theorem engineTurnTakesItsStep : Obligations.EngineTurnTakesItsStep := by
  unfold Obligations.EngineTurnTakesItsStep
  intro s t ht hturn
  have htaken : engineStep Config.outDepth (s.setSched s.sched.tail) = some (t.setSched s.sched.tail) := by
    rw [engineStep_setSched, ht, Option.map_some]
  rw [← or_assoc] at hturn
  obtain h | ⟨h, hq⟩ := hturn
  · exact (stepWith_eq_engineFirst h).trans (engineFirst_of_engineStep htaken)
  · exact (stepWith_eq_hostFirst h).trans (hostFirst_of_noOp hq htaken)

end Sys2Proof.Machine
end

section
/-! Proofs of the statements about the encoding (30_encoding.md), over layers that other proofs can use: the decoder on
every word, commands under a change of CMD_ARG, the lines of the assembler, runs of an idle machine, and the parse. -/

namespace Sys2Proof.Machine

/-! ### The decoder, on every word (R81, R84, R85, R88) -/

theorem mem_allInstrs (i : Instr) : i ∈ allInstrs := by cases i <;> decide

theorem opcodes_eq_map_opc : opcodes = allInstrs.map Instr.opc := rfl

/-- The opcodes of the map are those of the commands. -/
theorem mem_opcodes_iff (o : Byte) : o ∈ opcodes ↔ ∃ i : Instr, i.opc = o := by
  simp [opcodes_eq_map_opc, mem_allInstrs]

theorem decodeOpc_opc (i : Instr) : decodeOpc i.opc = .ok i := by cases i <;> rfl

theorem decodeOpc_ok_iff (o : Byte) : (∃ i, decodeOpc o = .ok i) ↔ o ∈ opcodes := by
  rw [mem_opcodes_iff]
  constructor
  · rintro ⟨i, h⟩
    exact ⟨i, (eq_opc_of_decodeOpc h).symm⟩
  · rintro ⟨i, rfl⟩
    exact ⟨i, decodeOpc_opc i⟩

/-- A reserved opcode is rejected by name (R85). -/
theorem decodeOpc_of_notMem {o : Byte} (h : o ∉ opcodes) : decodeOpc o = .error (.reservedOpcode o) := by
  simp only [opcodes, List.mem_cons, List.not_mem_nil, or_false, not_or] at h
  simp [decodeOpc, h]

theorem decode_of_rsv_zero {v : Word} (h : rsvField v = 0#24) : decode v = decodeOpc (opcField v) := if_pos h

theorem decode_of_rsv_ne_zero {v : Word} (h : rsvField v ≠ 0#24) :
    decode v = .error (.reservedBits (rsvField v)) := if_neg h

theorem decode_ok_iff (v : Word) : (∃ i, decode v = .ok i) ↔ rsvField v = 0#24 ∧ opcField v ∈ opcodes := by
  by_cases hrsv : rsvField v = 0#24
  · simp [decode_of_rsv_zero hrsv, decodeOpc_ok_iff, hrsv]
  · simp [decode_of_rsv_ne_zero hrsv, hrsv]

/-- Decoding has two outcomes, a command or an error, and never both. -/
theorem decode_error_iff (v : Word) : (∃ e, decode v = .error e) ↔ ¬∃ i, decode v = .ok i := by
  cases decode v <;> simp

/-- Settles O2: the model's two fields of an OP word are the statement's bit ranges. -/
theorem decodeEncodeAgreeOnAllWords : Obligations.DecodeEncodeAgreeOnAllWords := by
  unfold Obligations.DecodeEncodeAgreeOnAllWords
  exact ⟨decode_encode, fun v i => eq_encode_of_decode, decode_ok_iff,
    fun v => (decode_error_iff v).trans (decode_ok_iff v).not⟩

theorem rsvField_append (r : BitVec 24) (b : Byte) : rsvField (r ++ b) = r := BitVec.extractLsb'_append_eq_left

theorem opcField_append (r : BitVec 24) (b : Byte) : opcField (r ++ b) = b := BitVec.extractLsb'_append_eq_right

theorem zeroExtend_eq_append (b : Byte) : b.setWidth 32 = 0#24 ++ b := BitVec.setWidth_eq_append (by decide)

/-- A zero-extended byte is an OP word with RSV zero. -/
theorem decode_zeroExtend (b : Byte) : decode (b.setWidth 32) = decodeOpc b := by
  rw [zeroExtend_eq_append, decode_of_rsv_zero (rsvField_append _ _), opcField_append]

/-- Settles O1: the rows are eleven closed facts; the reserved opcodes are those outside the model's `opcodes`. -/
theorem opcodeMapRowByRow : Obligations.OpcodeMapRowByRow := by
  unfold Obligations.OpcodeMapRowByRow
  refine ⟨by decide, fun b hb => ?_, by decide⟩
  rw [decode_zeroExtend]
  exact decodeOpc_of_notMem hb

/-! ### The placement of an OP word (R87) -/

theorem ofNat_toNat_mod (v : Word) : BitVec.ofNat 32 (v.toNat % 2 ^ 32) = v := by
  rw [Nat.mod_eq_of_lt v.isLt, BitVec.ofNat_toNat, BitVec.setWidth_eq]

theorem tableWord_toNat (v : Word) : tableWord 32 v.toNat = some v := by
  rw [tableWord, if_pos (Nat.mod_lt _ (Nat.two_pow_pos 32)), ofNat_toNat_mod]

theorem decodeTableWord_toNat (v : Word) : decodeTableWord 32 v.toNat = (decode v).toOption := by
  rw [decodeTableWord, tableWord_toNat, Option.bind_some]

theorem withFetchWord_toNat (s : State) (v : Word) : s.withFetchWord 32 v.toNat = s.issueNext v := by
  rw [State.withFetchWord, ofNat_toNat_mod]

/-- The write of a command's own word to CMD_OP is that command's meaning. -/
theorem hostOp_write_encode (depth : Nat) (i : Instr) (s : State) :
    hostOp depth (writeOp 0x00 (encode i)) s = exec i (s.respond .done) := by
  rw [writeOp, hostOp_write, memWrite_cmdOp, issueCommand_of_decode (decode_encode i)]

/-- Settles O7: the placed word is the host's next operation, and the turn is the host's. -/
theorem placedWordRunsNext : Obligations.PlacedWordRunsNext := by
  unfold Obligations.PlacedWordRunsNext
  intro s i
  constructor
  · rw [decodeTableWord_toNat, decode_encode]; rfl
  · rw [withFetchWord_toNat]
    exact (hostTurnPerformsNextOperation (s.issueNext (encode i)) _ _ rfl (.inl rfl)).trans
      (hostOp_write_encode _ i s)

/-! ### The operand forms (R82, R83) -/

/-- An effect that commutes with a change of CMD_ARG gives an issue that does, refusals included. -/
theorem issue_setCmdArg {s : State} {w : Word} {effect : State → State}
    (h : effect (s.accept.setCmdArg w) = (effect s.accept).setCmdArg w) :
    ∃ t, issue s effect = .next t ∧ issue (s.setCmdArg w) effect = .next (t.setCmdArg w) := by
  cases hb : s.busy with
  | true => exact ⟨_, issue_of_busy effect hb, issue_of_busy effect hb⟩
  | false => exact ⟨_, issue_of_idle effect hb, (issue_of_idle (s := s.setCmdArg w) effect hb).trans (congrArg _ h)⟩

theorem issueBuilt_setCmdArg {s : State} {w : Word} {effect : Index → State → State}
    (h : ∀ ix, effect ix (s.accept.setCmdArg w) = (effect ix s.accept).setCmdArg w) :
    ∃ t, issueBuilt s effect = .next t ∧ issueBuilt (s.setCmdArg w) effect = .next (t.setCmdArg w) := by
  cases hb : s.busy with
  | true => exact ⟨_, issueBuilt_of_busy effect hb, issueBuilt_of_busy effect hb⟩
  | false =>
    cases hi : s.index with
    | none => exact ⟨_, issueBuilt_of_unbuilt effect hb hi, issueBuilt_of_unbuilt effect hb hi⟩
    | some ix =>
      exact ⟨_, issueBuilt_of_built effect hb hi,
        (issueBuilt_of_built (s := s.setCmdArg w) effect hb hi).trans (congrArg _ (h ix))⟩

/-- Settles O5: the effect of a command of the form `none` does not read CMD_ARG, and that of a command of the form
`byte` reads it through the byte operand alone. -/
theorem unusedOperandBitsHaveNoEffect : Obligations.UnusedOperandBitsHaveNoEffect := by
  unfold Obligations.UnusedOperandBitsHaveNoEffect
  intro i s w h
  change ∃ t, exec i s = .next t ∧ exec i (s.setCmdArg w) = .next (t.setCmdArg w)
  obtain (rfl | rfl) | ⟨hi, hw⟩ := h
  · simp only [exec_hashReset]
    exact issue_setCmdArg rfl
  · simp only [exec_crack]
    exact issueBuilt_setCmdArg fun _ => rfl
  · have hbyte : (s.accept.setCmdArg w).byteOperand = s.accept.byteOperand := hw
    obtain rfl | rfl | rfl := hi
    · simp only [exec_hashChar]
      exact issue_setCmdArg (by rw [hbyte]; rfl)
    · simp only [exec_tableRead]
      exact issueBuilt_setCmdArg fun _ => by rw [hbyte]; rfl
    · simp only [exec_crcUpdate]
      exact issueBuilt_setCmdArg fun _ => by rw [hbyte]; rfl

/-! ### The lines of the assembler (R89 to R91) -/

theorem assemble_of_legal {ls : List Line} (h : ls.all lineLegal = true) : assemble ls = some (ls.flatMap lineOps) :=
  if_pos h

theorem assemble_singleton {l : Line} (h : lineLegal l = true) : assemble [l] = some (lineOps l) := by
  rw [assemble_of_legal (by simpa using h), List.flatMap_singleton]

/-- Programs that are legal together and become the same operations assemble alike. -/
theorem assemble_congr {ls ms : List Line} (hlegal : ls.all lineLegal = ms.all lineLegal)
    (hops : ls.flatMap lineOps = ms.flatMap lineOps) : assemble ls = assemble ms := by
  rw [assemble, assemble, hlegal, hops]

theorem lineLegal_command (i : Instr) (operand : Option AsmOperand) :
    lineLegal (.command i operand) = operandLegal (operandForm i) operand := rfl

theorem asmWord_toNat (b : Byte) : asmWord (.num b.toNat) = b.setWidth 32 := BitVec.ofNat_toNat 32 b

theorem assemble_command {i : Instr} {operand : Option AsmOperand}
    (h : operandLegal (operandForm i) operand = true) :
    assemble [.command i operand] = some (commandOps i (operand.map asmWord)) :=
  assemble_singleton h

/-- The lines that `HASH "s"` stands for are legal whatever the bytes. -/
theorem all_lineLegal_hashChars (s : List Byte) :
    (s.map fun c => Line.command .hashChar (some (.chr c))).all lineLegal = true := by
  simp [lineLegal_command, operandForm, operandLegal]

theorem assemble_hash (s : List Byte) : assemble [.hash s] =
    assemble (.command .hashReset none :: s.map fun c => .command .hashChar (some (.chr c))) := by
  apply assemble_congr
  · rw [List.all_cons, List.all_cons, all_lineLegal_hashChars]; rfl
  · rw [List.flatMap_singleton, List.flatMap_cons, List.flatMap_map]; rfl

theorem assemble_crackHex (s : List Byte) :
    assemble [.crackHex s] = assemble [.hash s, .command .crack none] :=
  assemble_congr rfl (by simp [lineOps])

theorem assemble_crcBytes (s0 : Nat) (bs : List AsmOperand) : assemble [.crcBytes s0 bs] =
    assemble (.command .resultLoad (some (.num s0)) :: bs.map fun b => .command .crcUpdate (some b)) := by
  apply assemble_congr
  · rw [List.all_cons, List.all_cons, List.all_map, List.all_nil, Bool.and_true]; rfl
  · rw [List.flatMap_singleton, List.flatMap_cons, List.flatMap_map]; rfl

/-- Settles O58: a legal line becomes its own operations, and each pseudo-instruction is legal with its expansion and
becomes the same operations. -/
theorem assemblerLinesExpand : Obligations.AssemblerLinesExpand := by
  unfold Obligations.AssemblerLinesExpand
  refine ⟨fun i w hw hform => ?word, fun i b hform => ⟨?num, ?chr⟩, fun i hform => ?bare, fun off v hv => ?write,
    fun off => rfl, rfl, rfl, rfl, rfl, assemble_hash, assemble_crackHex, assemble_crcBytes, rfl⟩
  case word => exact assemble_command (by rw [hform]; exact decide_eq_true hw)
  case num =>
    rw [assemble_command (by rw [hform]; exact decide_eq_true b.isLt), Option.map_some, asmWord_toNat]; rfl
  case chr => exact assemble_command (by rw [hform]; rfl)
  case bare => exact assemble_command (by rw [hform]; rfl)
  case write => exact assemble_singleton (decide_eq_true hv)

/-! ### Runs of an idle machine (20_memory.md R61) -/

theorem run_one (M : Host.Core) (s : M.State) : M.run 1 s = M.step s := by
  rw [Host.Core.run]; cases M.step s <;> rfl

theorem run_succ_of_next {M : Host.Core} {s t : M.State} (k : Nat) (h : M.step s = .next t) :
    M.run (k + 1) s = M.run k t := by
  rw [Host.Core.run, h]

theorem run_add_of_next {M : Host.Core} {m : Nat} {s t : M.State} (n : Nat) (h : M.run m s = .next t) :
    M.run (m + n) s = M.run n t := by
  induction m generalizing s with
  | zero => rw [Nat.zero_add, Host.Outcome.next.inj h]
  | succ m ih =>
    rw [Host.Core.run] at h
    cases hstep : M.step s with
    | next u =>
      rw [hstep] at h
      rw [Nat.add_right_comm, run_succ_of_next _ hstep, ih h]
    | fault r => rw [hstep] at h; cases h
    | refused r => rw [hstep] at h; cases h

theorem engineStep_of_idle (depth : Nat) {s : State} (h : s.cur = .none) : engineStep depth s = none := by
  rw [engineStep, h]

/-- With no turn left and the engine idle, the host's next operation is the step. -/
theorem step_of_idle {s : State} {op : HostOp} {rest : List HostOp} (hidle : s.cur = .none) (hsched : s.sched = [])
    (hq : s.hostq = op :: rest) : step s = hostOp Config.outDepth op (s.setHostq rest) := by
  have hturn : s.sched.head? ≠ some .reset := by rw [hsched]; exact nofun
  rw [hostTurnPerformsNextOperation s op rest hq (.inr ⟨hturn, engineStep_of_idle _ hidle⟩), hsched, List.tail_nil,
    ← hsched]
  rfl

/-- `s` with the operand `w` staged by a CMD_ARG write that the bus answered, and `ops` left to the host. -/
abbrev State.staged (s : State) (w : Word) (ops : List HostOp) : State := ((s.setHostq ops).setCmdArg w).respond .done

theorem step_stages_operand {s : State} {w : Word} {ops : List HostOp} (hidle : s.cur = .none) (hsched : s.sched = [])
    (hq : s.hostq = writeOp 0x04 w :: ops) : step s = .next (s.staged w ops) :=
  (step_of_idle hidle hsched hq).trans (memWrite_cmdArg w _)

theorem step_issues_command {s : State} {i : Instr} {rest : List HostOp} (hidle : s.cur = .none)
    (hsched : s.sched = []) (hq : s.hostq = writeOp 0x00 (encode i) :: rest) :
    step s = exec i ((s.setHostq rest).respond .done) :=
  (step_of_idle hidle hsched hq).trans (hostOp_write_encode _ i _)

/-- Settles O59: the first write stages the operand and leaves the machine idle, and the second is the command. -/
theorem assembledCommandRuns : Obligations.AssembledCommandRuns := by
  unfold Obligations.AssembledCommandRuns
  intro s i w rest hidle hsched hq
  have hissue : step (s.staged w (writeOp 0x00 (encode i) :: rest)) = exec i (s.staged w rest) :=
    step_issues_command (s := s.staged w _) hidle hsched rfl
  exact (run_succ_of_next (M := core) 1 (step_stages_operand hidle hsched hq)).trans ((run_one core _).trans hissue)

/-! ### The parse of a string (43_prefix_search.md R181) -/

theorem ofNat_shiftLeft_four (n : Nat) : BitVec.ofNat 32 (n <<< 4) = BitVec.ofNat 32 n <<< 4 := by
  apply BitVec.eq_of_toNat_eq
  simp [Nat.shiftLeft_eq]

/-- The shift by four bits makes room for the digit, so the accumulator is multiplied by 16 and the digit added. -/
theorem hashShift_ofNat (n : Nat) (c : Byte) :
    hashShift (BitVec.ofNat 32 n) c = BitVec.ofNat 32 (hexVal c + 16 * n) := by
  have hsum : hexVal c + 16 * n = n <<< 4 ||| hexVal c := by
    rw [← Nat.shiftLeft_add_eq_or_of_lt (hexVal_lt c), Nat.shiftLeft_eq]; omega
  rw [hashShift, hsum, BitVec.ofNat_or, ofNat_shiftLeft_four]

theorem foldl_hashShift_zero (cs : List Byte) :
    cs.foldl hashShift 0#32 = BitVec.ofNat 32 (Nat.ofDigits 16 (cs.reverse.map hexVal)) := by
  induction cs using List.reverseRecOn with
  | nil => rfl
  | append_singleton cs c ih =>
    rw [List.foldl_append, List.foldl_cons, List.foldl_nil, ih, hashShift_ofNat, List.reverse_concat, List.map_cons,
      Nat.ofDigits_cons]

theorem exec_hashChar_of_idle {s : State} (h : s.cur = .none) :
    exec .hashChar s = .next (s.accept.setHashAcc (hashShift s.hashAcc s.byteOperand)) :=
  (exec_hashChar s).trans (issue_of_idle _ ((busy_eq_false_iff s).2 h))

theorem exec_hashReset_of_idle {s : State} (h : s.cur = .none) :
    exec .hashReset s = .next (s.accept.setHashAcc 0#32) :=
  (exec_hashReset s).trans (issue_of_idle _ ((busy_eq_false_iff s).2 h))

/-- The byte operand of a staged character is that character (R82, R90). -/
theorem byteOperand_staged (s : State) (c : Byte) (ops : List HostOp) :
    (s.staged (c.setWidth 32) ops).byteOperand = c := by
  rw [zeroExtend_eq_append]
  exact BitVec.extractLsb'_append_eq_right

/-! ### The operations of HASH (R91) -/

/-- What accepted characters leave of `s`: the last one staged, and all of them shifted in. -/
def State.afterHashChars (s : State) (cs : List Byte) (rest : List HostOp) : State :=
  { s with
    hostq := rest, resp := .done, err := .none,
    cmdArg := (cs.getLast?.map (·.setWidth 32)).getD s.cmdArg,
    hashAcc := cs.foldl hashShift s.hashAcc }

theorem afterHashChars_nil {s : State} {rest : List HostOp} (hq : s.hostq = rest) (herr : s.err = .none)
    (hresp : s.resp = .done) : s.afterHashChars [] rest = s := by
  subst hq
  rw [State.afterHashChars, ← herr, ← hresp]; rfl

theorem afterHashChars_cons (s : State) (c : Byte) (cs : List Byte) (ops rest : List HostOp) :
    (s.afterHashChars [c] ops).afterHashChars cs rest = s.afterHashChars (c :: cs) rest := by
  simp only [State.afterHashChars, List.getLast?_cons]
  cases cs.getLast? <;> rfl

theorem run_hashChar {s : State} {c : Byte} {rest : List HostOp} (hidle : s.cur = .none) (hsched : s.sched = [])
    (hq : s.hostq = commandOps .hashChar (some (c.setWidth 32)) ++ rest) :
    core.run 2 s = .next (s.afterHashChars [c] rest) := by
  have hexec := exec_hashChar_of_idle (s := s.staged (c.setWidth 32) rest) hidle
  rw [byteOperand_staged] at hexec
  exact (assembledCommandRuns s .hashChar _ rest hidle hsched hq).trans hexec

/-- By induction on the characters: each one leaves an idle machine with the others still to write. -/
theorem run_hashChars (cs : List Byte) {s : State} {rest : List HostOp} (hidle : s.cur = .none) (hsched : s.sched = [])
    (herr : s.err = .none) (hresp : s.resp = .done)
    (hq : s.hostq = (cs.flatMap fun c => commandOps .hashChar (some (c.setWidth 32))) ++ rest) :
    core.run (2 * cs.length) s = .next (s.afterHashChars cs rest) := by
  induction cs generalizing s with
  | nil => exact congrArg _ (afterHashChars_nil hq herr hresp).symm
  | cons c cs ih =>
    rw [List.flatMap_cons, List.append_assoc] at hq
    rw [List.length_cons, Nat.mul_succ, Nat.add_comm]
    refine (run_add_of_next (M := core) _ (run_hashChar hidle hsched hq)).trans ?_
    have hrest := ih (s := s.afterHashChars [c] _) hidle hsched rfl rfl rfl
    exact hrest.trans (congrArg _ (afterHashChars_cons s c cs _ rest))

theorem step_hashReset {s : State} {rest : List HostOp} (hidle : s.cur = .none) (hsched : s.sched = [])
    (hq : s.hostq = commandOps .hashReset none ++ rest) :
    step s = .next ((((s.setHostq rest).respond .done).accept).setHashAcc 0#32) :=
  (step_issues_command hidle hsched hq).trans (exec_hashReset_of_idle hidle)

/-- Settles O60: HASH_RESET clears the accumulator, and the characters are then shifted into it. -/
theorem assembledHashParses : Obligations.AssembledHashParses := by
  unfold Obligations.AssembledHashParses
  intro s cs rest hidle hsched hq
  rw [lineOps, hashOps, List.append_assoc] at hq
  refine ⟨_, ?_, rfl⟩
  rw [← foldl_hashShift_zero]
  exact (run_succ_of_next (M := core) _ (step_hashReset hidle hsched hq)).trans
    (run_hashChars cs hidle hsched rfl rfl rfl)

end Sys2Proof.Machine
end

section
/-! Proofs of the statements about PolyTable (40_polytable.md), over two layers that other proofs can use: a step of the
table loop is linear in the register, and a linear function of a word is the sum of its values on the word's bits. -/

namespace Sys2Proof.Machine

/-! ### The step of the table loop (R100) -/

theorem tableStep_xor (poly r q : Word) : tableStep poly (r ^^^ q) = tableStep poly r ^^^ tableStep poly q := by
  simp only [tableStep, BitVec.getLsbD_xor, BitVec.ushiftRight_xor_distrib]
  cases r.getLsbD 0 with
  | false => cases q.getLsbD 0 <;> simp [BitVec.xor_assoc]
  | true => cases q.getLsbD 0 <;> simp [BitVec.xor_assoc, BitVec.xor_comm poly]

/-- A single set bit moves down one place. -/
theorem tableStep_twoPow_succ (poly : Word) {k : Nat} (hk : k + 1 < 32) :
    tableStep poly (BitVec.twoPow 32 (k + 1)) = BitVec.twoPow 32 k := by
  have hlow : (BitVec.twoPow 32 (k + 1)).getLsbD 0 = false := by simp
  rw [tableStep, hlow, if_neg Bool.false_ne_true]
  ext i hi
  simp [BitVec.getLsbD_twoPow, hk, Nat.add_comm 1 i, eq_comm]

theorem tableStep_iterate_twoPow (poly : Word) {k : Nat} (hk : k < 32) :
    (tableStep poly)^[k] (BitVec.twoPow 32 k) = 1#32 := by
  induction k with
  | zero => rfl
  | succ k ih => rw [Function.iterate_succ_apply, tableStep_twoPow_succ poly hk, ih (by omega)]

theorem tableStep_one (poly : Word) : tableStep poly 1#32 = poly := BitVec.zero_xor

theorem tableStep_zeroPoly (r : Word) : tableStep 0#32 r = r >>> 1 := by
  rw [tableStep, BitVec.xor_zero, ite_self]

theorem tableStep_zeroPoly_iterate (n : Nat) (r : Word) : (tableStep 0#32)^[n] r = r >>> n := by
  induction n with
  | zero => rfl
  | succ n ih => rw [Function.iterate_succ_apply', ih, tableStep_zeroPoly, BitVec.shiftRight_add]

/-! ### The entries of a generated table (R102) -/

theorem tblAt_tableGen_xor (poly : Word) (a b : Byte) :
    tblAt (tableGen poly) (a ^^^ b) = tblAt (tableGen poly) a ^^^ tblAt (tableGen poly) b := by
  simp only [tblAt_tableGen, tableEntry, BitVec.setWidth_xor]
  exact Function.Semiconj₂.iterate (tableStep_xor poly) 8 _ _

/-- Linearity alone gives entry 0. -/
theorem tblAt_tableGen_zero (poly : Word) : tblAt (tableGen poly) 0x00#8 = 0#32 := by
  have h := tblAt_tableGen_xor poly 0x00#8 0x00#8
  rwa [BitVec.xor_self, BitVec.xor_self] at h

/-- Seven steps bring 0x80 down to the low bit, and the eighth XORs the polynomial into zero. -/
theorem tblAt_tableGen_topBit (poly : Word) : tblAt (tableGen poly) 0x80#8 = poly := by
  have hbit : (0x80#8).setWidth 32 = BitVec.twoPow 32 7 := rfl
  rw [tblAt_tableGen, tableEntry, hbit, Function.iterate_succ_apply', tableStep_iterate_twoPow poly (by decide),
    tableStep_one]

/-- Eight right shifts clear a byte. -/
theorem tblAt_tableGen_zeroPoly (b : Byte) : tblAt (tableGen 0#32) b = 0#32 := by
  rw [tblAt_tableGen, tableEntry, tableStep_zeroPoly_iterate]
  ext i hi
  simp

/-! ### A linear function on the bits of a word (R102 d) -/

/-- The XOR of `f k` over the set bits `k < n` of `b`. -/
def xorBits {w v : Nat} (f : Nat → BitVec v) (n : Nat) (b : BitVec w) : BitVec v :=
  (List.range n).foldl (fun acc k => if b.getLsbD k then acc ^^^ f k else acc) 0#v

theorem xorBits_succ {w v : Nat} (f : Nat → BitVec v) (n : Nat) (b : BitVec w) :
    xorBits f (n + 1) b = if b.getLsbD n then xorBits f n b ^^^ f n else xorBits f n b := by
  rw [xorBits, List.range_succ, List.foldl_append]; rfl

theorem map_xorBits {w v u : Nat} {g : BitVec v → BitVec u} (hzero : g 0#v = 0#u)
    (hxor : ∀ x y, g (x ^^^ y) = g x ^^^ g y) (f : Nat → BitVec v) (n : Nat) (b : BitVec w) :
    g (xorBits f n b) = xorBits (g ∘ f) n b := by
  induction n with
  | zero => exact hzero
  | succ n ih => rw [xorBits_succ, xorBits_succ, apply_ite g, hxor, ih, Function.comp_apply]

/-- The XOR of the first `n` places of `b` is `b` cut off there. -/
theorem getLsbD_xorBits_shiftLeft {w : Nat} (b : BitVec w) (n : Nat) {i : Nat} (hi : i < w) :
    (xorBits (1#w <<< ·) n b).getLsbD i = (decide (i < n) && b.getLsbD i) := by
  induction n with
  | zero => simp [xorBits]
  | succ n ih =>
    have hbit : (1#w <<< n).getLsbD i = decide (n = i) := by
      rw [← BitVec.twoPow_eq, BitVec.getLsbD_twoPow]
      by_cases hn : n = i <;> simp [hn, hi]
    rw [xorBits_succ]
    by_cases hin : n = i
    · subst hin
      cases hb : b.getLsbD n <;> simp [ih, hb, hbit]
    · have hlt : decide (i < n + 1) = decide (i < n) := decide_eq_decide.2 (by omega)
      rw [hlt]
      split <;> simp [ih, hbit, hin]

theorem xorBits_shiftLeft_eq_self {w : Nat} (b : BitVec w) : xorBits (1#w <<< ·) w b = b := by
  ext i hi
  rw [← BitVec.getLsbD_eq_getElem, getLsbD_xorBits_shiftLeft b w hi, decide_eq_true hi, Bool.true_and,
    BitVec.getLsbD_eq_getElem]

/-- Settles O15: entry 0 and the decomposition into the eight entries follow from linearity. -/
theorem generatedTableIsLinear : Obligations.GeneratedTableIsLinear := by
  unfold Obligations.GeneratedTableIsLinear
  refine ⟨tblAt_tableGen_zero, tblAt_tableGen_topBit, tblAt_tableGen_xor, fun poly b => ?_, tblAt_tableGen_zeroPoly⟩
  have hsum := map_xorBits (tblAt_tableGen_zero poly) (tblAt_tableGen_xor poly) (1#8 <<< ·) 8 b
  rwa [xorBits_shiftLeft_eq_self] at hsum

/-! ### The default polynomial (R103) -/

/-- Settles O16: eight steps of the loop for each printed entry. -/
theorem defaultTableEntries : Obligations.DefaultTableEntries := by
  unfold Obligations.DefaultTableEntries
  simp only [tblAt_tableGen]
  decide

/-! ### TABLE_READ (R105) -/

/-- Settles O14: the three branches of an issue that needs BUILT; the corner cases and the example are entries of the
generated table. -/
theorem tableReadCopiesEntryToResult : Obligations.TableReadCopiesEntryToResult := by
  unfold Obligations.TableReadCopiesEntryToResult
  simp only [exec_tableRead, ← busy_eq_false_iff, ← busy_eq_true_iff]
  exact ⟨decode_encode .tableRead, fun _ hbusy => issueBuilt_of_busy _ hbusy,
    fun _ hidle hnone => issueBuilt_of_unbuilt _ hidle hnone, fun _ _ hidle hix => issueBuilt_of_built _ hidle hix,
    rfl, fun poly => ⟨tblAt_tableGen_zero poly, tblAt_tableGen_topBit poly⟩, defaultTableEntries.1⟩

end Sys2Proof.Machine
end

section
/-! Proofs of the statements about DigitCrc (41_digitcrc.md), over three layers that other proofs can use: Digits is
Mathlib's list of base-10 digits reversed, feeding a generated table is linear, and the commands on RESULT that need BUILT
share the branches of their issue. -/

namespace Sys2Proof.Machine

/-! ### The register transition (R120) -/

/-- Settles O17: the mask 0xFF keeps the low byte, whose value is in the table's range. -/
theorem updateTransition : Obligations.UpdateTransition := by
  unfold Obligations.UpdateTransition
  intro tbl s b
  have hmask (x : Word) : (x &&& 0xFF#32).toNat = (x.extractLsb' 0 8).toNat := by
    rw [BitVec.toNat_and, BitVec.extractLsb'_toNat, Nat.shiftRight_zero]
    exact Nat.and_two_pow_sub_one_eq_mod x.toNat 8
  rw [hmask, rd_of_lt tbl (BitVec.isLt _)]
  rfl

/-! ### The digit sequence (R122) -/

theorem digits_eq_reverse_natDigits (n : Nat) : digits n = (Nat.digits 10 n).reverse := by
  induction n using Nat.strong_induction_on with
  | _ n ih =>
    obtain rfl | hn := Nat.eq_zero_or_pos n
    · simp
    · rw [digits_of_pos hn, ih (n / 10) (by omega), Nat.digits_def' (by decide) hn, List.reverse_cons]

theorem length_digits_le_iff {n k : Nat} : (digits n).length ≤ k ↔ n < 10 ^ k := by
  rw [digits_eq_reverse_natDigits, List.length_reverse, Nat.digits_length_le_iff (by decide)]

theorem lt_length_digits_iff {n k : Nat} : k < (digits n).length ↔ 10 ^ k ≤ n := by
  rw [← not_le, length_digits_le_iff, not_lt]

theorem digit_le_nine {n d : Nat} (h : d ∈ digits n) : d ≤ 9 := by
  rw [digits_eq_reverse_natDigits, List.mem_reverse] at h
  exact Nat.le_of_lt_succ (Nat.digits_lt_base (by decide) h)

theorem head?_digits_ne_zero (n : Nat) : (digits n).head? ≠ some 0 := by
  rw [digits_eq_reverse_natDigits, List.head?_reverse]
  intro h
  obtain ⟨hne, hlast⟩ := List.mem_getLast?_eq_getLast h
  exact Nat.getLast_digit_ne_zero 10 (Nat.digits_ne_nil_iff_ne_zero.1 hne) hlast.symm

/-- Settles O18: each clause is a fact about the base-10 digits of a natural number. -/
theorem digitsAreTheDecimalDigits : Obligations.DigitsAreTheDecimalDigits := by
  unfold Obligations.DigitsAreTheDecimalDigits
  refine ⟨digits_zero, fun n => digits_of_pos, fun n d => digit_le_nine, head?_digits_ne_zero, fun n hn => ?_⟩
  have hlen : 0 < (digits n).length := lt_length_digits_iff.2 hn
  exact ⟨lt_length_digits_iff.1 (Nat.sub_lt hlen Nat.one_pos), length_digits_le_iff.1 le_rfl⟩

theorem length_leftpad_digits {n k : Nat} (h : n < 10 ^ k) :
    ((List.leftpad k 0 (digits n)).map digitByte).length = k := by
  rw [List.length_map, List.length_leftpad, max_eq_left (length_digits_le_iff.2 h)]

/-- The digits of a number split at a power of ten: the high part's, then the low part's with its leading zeros. -/
theorem digits_mul_pow_add {p v k : Nat} (hp : 0 < p) (hv : v < 10 ^ k) :
    digits (p * 10 ^ k + v) = digits p ++ List.leftpad k 0 (digits v) := by
  have hlen : (Nat.digits 10 v).length = (digits v).length := by rw [digits_eq_reverse_natDigits, List.length_reverse]
  have hsplit := Nat.digits_append_zeroes_append_digits (b := 10) (n := v) (k := k - (digits v).length) (by decide) hp
  rw [hlen, Nat.add_sub_cancel' (length_digits_le_iff.2 hv), Nat.add_comm, Nat.mul_comm] at hsplit
  rw [digits_eq_reverse_natDigits, ← hsplit, List.reverse_append, List.reverse_append, List.reverse_replicate,
    ← digits_eq_reverse_natDigits, ← digits_eq_reverse_natDigits, List.leftpad]

/-! ### Linearity of feeding (R125) -/

theorem xor_xor_xor_comm {w : Nat} (a b c d : BitVec w) : (a ^^^ b) ^^^ (c ^^^ d) = (a ^^^ c) ^^^ (b ^^^ d) := by
  ac_rfl

section

variable (poly : Word)

theorem update_tableGen (s : Word) (b : Byte) : update (tableGen poly) s b =
    tableEntry poly ((s ^^^ b.setWidth 32).extractLsb' 0 8) ^^^ (s >>> 8) := by
  rw [update, tblAt_tableGen]

theorem update_tableGen_xor (s r : Word) (b c : Byte) : update (tableGen poly) (s ^^^ r) (b ^^^ c) =
    update (tableGen poly) s b ^^^ update (tableGen poly) r c := by
  have hindex : ((s ^^^ r) ^^^ (b ^^^ c).setWidth 32).extractLsb' 0 8 =
      (s ^^^ b.setWidth 32).extractLsb' 0 8 ^^^ (r ^^^ c.setWidth 32).extractLsb' 0 8 := by
    rw [BitVec.setWidth_xor, xor_xor_xor_comm, BitVec.extractLsb'_xor]
  rw [update, hindex, tblAt_tableGen_xor, BitVec.ushiftRight_xor_distrib, xor_xor_xor_comm]
  rfl

theorem update_tableGen_zero : update (tableGen poly) 0#32 0#8 = 0#32 := by
  have h := update_tableGen_xor poly 0#32 0#32 0#8 0#8
  rwa [BitVec.xor_self, BitVec.xor_self, BitVec.xor_self] at h

theorem feed_zipWith_xor (s r : Word) {b c : List Byte} (h : b.length = c.length) :
    feed (tableGen poly) (s ^^^ r) (List.zipWith (· ^^^ ·) b c) =
      feed (tableGen poly) s b ^^^ feed (tableGen poly) r c := by
  induction b generalizing s r c with
  | nil =>
    obtain rfl := List.length_eq_zero_iff.1 h.symm
    rfl
  | cons x b ih =>
    cases c with
    | nil => cases h
    | cons y c =>
      rw [List.zipWith_cons_cons, feed_cons, update_tableGen_xor, ih _ _ (Nat.succ.inj h), feed_cons, feed_cons]

/-- XORing every byte with one constant is XORing with a sequence of it. -/
theorem map_xor_eq_zipWith (c : Byte) (bs : List Byte) :
    bs.map (c ^^^ ·) = List.zipWith (· ^^^ ·) (List.replicate bs.length c) bs := by
  rw [← List.map_const', List.zipWith_map_left, List.zipWith_self]

/-- A constant XORed into every byte contributes independently of the bytes. -/
theorem feed_map_xor (s : Word) (c : Byte) (bs : List Byte) : feed (tableGen poly) s (bs.map (c ^^^ ·)) =
    feed (tableGen poly) s (List.replicate bs.length c) ^^^ feed (tableGen poly) 0#32 bs := by
  have h := feed_zipWith_xor poly s 0#32 (List.length_replicate (n := bs.length) (a := c))
  rwa [BitVec.xor_zero, ← map_xor_eq_zipWith] at h

/-- The start register and the bytes contribute independently. -/
theorem feed_eq_zeros_xor (s : Word) (b : List Byte) : feed (tableGen poly) s b =
    feed (tableGen poly) s (List.replicate b.length 0#8) ^^^ feed (tableGen poly) 0#32 b := by
  simpa only [BitVec.zero_xor, List.map_id'] using feed_map_xor poly s 0#8 b

end

/-- Settles O19: one feed of the XORs from the XOR of two registers, with the second register zero. -/
theorem feedingIsLinear : Obligations.FeedingIsLinear := by
  unfold Obligations.FeedingIsLinear
  refine fun poly => ⟨update_tableGen_xor poly, fun s b c hlen => ?_, feed_eq_zeros_xor poly⟩
  have h := feed_zipWith_xor poly s 0#32 hlen
  rwa [BitVec.xor_zero] at h

/-! ### The digest (R123, R124) -/

section

variable (poly : Word)

theorem feed_zeros (k : Nat) : feed (tableGen poly) 0#32 (List.replicate k 0#8) = 0#32 := by
  induction k with
  | zero => rfl
  | succ k ih => rw [List.replicate_succ, feed_cons, update_tableGen_zero, ih]

/-- Leading zeros are free from a clear register (R124 b). -/
theorem feed_zeros_append (k : Nat) (bs : List Byte) :
    feed (tableGen poly) 0#32 (List.replicate k 0#8 ++ bs) = feed (tableGen poly) 0#32 bs := by
  rw [feed_append, feed_zeros]

theorem feed_leftpad_digits (k n : Nat) :
    feed (tableGen poly) 0#32 ((List.leftpad k 0 (digits n)).map digitByte) = digestOf (tableGen poly) n false := by
  rw [List.leftpad, List.map_append, List.map_replicate]
  exact feed_zeros_append poly _ _

theorem digestOf_zero (tbl : Vector Word 256) : digestOf tbl 0 false = 0#32 := rfl

theorem digestOf_zero_pad : digestOf (tableGen poly) 0 true = 0#32 := by
  rw [digestOf_pad, digestOf_zero, feed_zeros]

/-- A number's digest from its high digits, padded, and its low five (R124 d). -/
theorem digestOf_mul_add {p v : Nat} (hp : 0 < p) (hv : v < 100000) :
    digestOf (tableGen poly) (p * 100000 + v) false =
      digestOf (tableGen poly) p true ^^^ digestOf (tableGen poly) v false := by
  have hdigits : digits (p * 100000 + v) = digits p ++ List.leftpad 5 0 (digits v) := digits_mul_pow_add (k := 5) hp hv
  have hlen : ((List.leftpad 5 0 (digits v)).map digitByte).length = Config.padRounds :=
    length_leftpad_digits (k := 5) hv
  rw [digestOf_noPad, hdigits, List.map_append, feed_append, ← digestOf_noPad, feed_eq_zeros_xor, hlen,
    feed_leftpad_digits, digestOf_pad]

/-- Padding is multiplication by 10^5 (R124 c). -/
theorem digestOf_pad_eq (n : Nat) :
    digestOf (tableGen poly) n true = digestOf (tableGen poly) (n * 100000) false := by
  obtain rfl | hn := Nat.eq_zero_or_pos n
  · rw [digestOf_zero_pad, Nat.zero_mul, digestOf_zero]
  · have h := digestOf_mul_add poly hn (v := 0) (by decide)
    rw [Nat.add_zero, digestOf_zero, BitVec.xor_zero] at h
    exact h.symm

end

/-- Settles O20: the split at 10^5 gives (d), and (c) is its case of low digits zero. -/
theorem digestProperties : Obligations.DigestProperties := by
  unfold Obligations.DigestProperties
  exact fun poly => ⟨digestOf_zero _, digestOf_zero_pad poly, fun n k => feed_zeros_append poly k _,
    digestOf_pad_eq poly, fun p v => digestOf_mul_add poly⟩

/-! ### The register after a decimal text (R126) -/

/-- P_L feeds L pad bytes from all ones. -/
theorem prefixReg_eq_feed (tbl : Vector Word 256) (i : Nat) :
    prefixReg tbl i = feed tbl Config.pregInit (List.replicate i Config.padByte) := by
  induction i with
  | zero => rfl
  | succ i ih => rw [prefixReg_succ, ih, List.replicate_succ', feed_append, feed_cons, feed_nil]

/-- Settles O21: the text is the XOR of L characters '0' and the L digit values, so linearity splits its register. -/
theorem textRegisterIsPrefixXorDigest : Obligations.TextRegisterIsPrefixXorDigest := by
  unfold Obligations.TextRegisterIsPrefixXorDigest
  intro poly L n hn
  have hsplit := feed_map_xor poly Config.pregInit Config.padByte ((List.leftpad L 0 (digits n)).map digitByte)
  rwa [length_leftpad_digits hn, ← prefixReg_eq_feed, feed_leftpad_digits, List.map_map] at hsplit

/-! ### The commands on RESULT (R127 to R130) -/

/-- Settles O22: the two branches of an issue that does not need BUILT. -/
theorem resultLoadWritesResult : Obligations.ResultLoadWritesResult := by
  unfold Obligations.ResultLoadWritesResult
  simp only [exec_resultLoad, ← busy_eq_false_iff, ← busy_eq_true_iff]
  exact ⟨decode_encode .resultLoad, fun _ hbusy => issue_of_busy _ hbusy, fun _ hidle => issue_of_idle _ hidle⟩

/-- A command that needs BUILT and writes RESULT: its two refusals, and its effect with all it leaves unchanged. -/
theorem exec_resultBuilt {i : Instr} {f : Index → State → Word}
    (hexec : ∀ s, exec i s = issueBuilt s fun ix t => t.setResult (f ix t)) :
    (∀ s : State, s.cur ≠ .none → exec i s = .next { s with err := .busy }) ∧
    (∀ s : State, s.cur = .none → s.index = none → exec i s = .next { s with err := .notBuilt }) ∧
    (∀ (s : State) (ix : Index), s.cur = .none → s.index = some ix →
      exec i s = .next { s with err := .none, result := f ix s.accept }) := by
  simp only [hexec, ← busy_eq_false_iff, ← busy_eq_true_iff]
  exact ⟨fun _ hbusy => issueBuilt_of_busy _ hbusy, fun _ hidle hnone => issueBuilt_of_unbuilt _ hidle hnone,
    fun _ _ hidle hix => issueBuilt_of_built _ hidle hix⟩

/-- P_1 of the default polynomial, the example R128 prints. -/
theorem update_defaultTable_padByte : update (tableGen 0xEDB88320#32) 0xFFFFFFFF#32 0x30#8 = 0x0B2420DE#32 := by
  rw [update_tableGen]
  decide

/-- Settles O23: the branches of the issue; the printed P_1 is one Update from all ones. -/
theorem crcUpdateAdvancesResult : Obligations.CrcUpdateAdvancesResult := by
  unfold Obligations.CrcUpdateAdvancesResult
  obtain ⟨hbusy, hunbuilt, hbuilt⟩ := exec_resultBuilt exec_crcUpdate
  exact ⟨decode_encode .crcUpdate, hbusy, hunbuilt, hbuilt, update_tableGen_zero, rfl, update_defaultTable_padByte,
    (prefixReg_succ _ 0).trans update_defaultTable_padByte⟩

/-- The digest of one digit is its table entry. -/
theorem digestOf_one (poly : Word) : digestOf (tableGen poly) 1 false = tblAt (tableGen poly) 0x01#8 :=
  BitVec.xor_zero

/-- Settles O24: the branches of the issue; powers of ten bound the count of digits, and one digit's digest
is its table entry. -/
theorem digestWritesResult : Obligations.DigestWritesResult := by
  unfold Obligations.DigestWritesResult
  obtain ⟨hbusy, hunbuilt, hbuilt⟩ := exec_resultBuilt exec_digest
  have hlen : (digits 4294967295).length = 10 :=
    le_antisymm (length_digits_le_iff.2 (by decide)) (lt_length_digits_iff.2 (by decide))
  have hexample : digestOf (tableGen 0xEDB88320#32) 12345 false = 0x81296EE9#32 := by
    simp [digestOf_noPad, digits_of_pos, digitByte, update_tableGen, tableEntry, tableStep]
  exact ⟨decode_encode .digest, hbusy, hunbuilt, hbuilt, digestOf_zero, hlen, hexample,
    (digestOf_one _).trans defaultTableEntries.1⟩

/-- Settles O25: the branches of the issue; the corner cases are the properties of the padded digest. -/
theorem digestPadWritesResult : Obligations.DigestPadWritesResult := by
  unfold Obligations.DigestPadWritesResult
  obtain ⟨hbusy, hunbuilt, hbuilt⟩ := exec_resultBuilt exec_digestPad
  have hexample : digestOf (tableGen 0xEDB88320#32) 1 true = 0xCB5CD3A5#32 := by
    simp [digestOf_pad, digestOf_one, defaultTableEntries.1, Config.padRounds, List.replicate_succ, update_tableGen,
      tableEntry, tableStep]
  exact ⟨decode_encode .digestPad, hbusy, hunbuilt, hbuilt, digestOf_zero_pad,
    fun poly n _ _ => digestOf_pad_eq poly n, hexample⟩

end Sys2Proof.Machine
end

section
/-! Proofs of the statements about RainbowIndex (42_rainbow_index.md), over two layers that other proofs can use: the
offset at which a counting sort places each value, for any keys, and the same read off a build's arrays. -/

namespace Sys2Proof.Machine

/-! ### Counting keys (R150, R151) -/

/-- How many of the values below N have a key below k: where bucket k starts. -/
def keyStart (key : Nat → Nat) (N k : Nat) : Nat := ((List.range N).map key).countP fun x => decide (x < k)

/-- How many of the values below n have the key k. -/
def keyCount (key : Nat → Nat) (n k : Nat) : Nat := ((List.range n).map key).count k

section Keys

variable (key : Nat → Nat)

theorem keyCount_succ (n k : Nat) : keyCount key (n + 1) k = keyCount key n k + if key n = k then 1 else 0 := by
  simp only [keyCount, List.range_succ, List.map_append, List.map_cons, List.map_nil, List.count_append,
    List.count_singleton, beq_iff_eq]

theorem keyCount_mono (k : Nat) : Monotone fun n => keyCount key n k :=
  monotone_nat_of_le_succ fun n => (Nat.le_add_right _ _).trans_eq (keyCount_succ key n k).symm

/-- A value is counted under its key once it is passed. -/
theorem keyCount_lt {n m : Nat} (h : n < m) : keyCount key n (key n) < keyCount key m (key n) := by
  have hmono : keyCount key (n + 1) (key n) ≤ keyCount key m (key n) := keyCount_mono key (key n) h
  rwa [keyCount_succ, if_pos rfl] at hmono

theorem keyStart_succ (N k : Nat) : keyStart key N (k + 1) = keyStart key N k + keyCount key N k := by
  rw [keyStart, keyStart, keyCount, ← sum_count_range, ← sum_count_range, List.range_succ]
  simp

theorem keyStart_mono (N : Nat) : Monotone (keyStart key N) :=
  monotone_nat_of_le_succ fun k => (Nat.le_add_right _ _).trans_eq (keyStart_succ key N k).symm

theorem keyStart_zero (N : Nat) : keyStart key N 0 = 0 := by simp [keyStart]

theorem keyStart_le (N k : Nat) : keyStart key N k ≤ N := countP_map_range_le _ _ _

/-- A bound of the keys has all the values below it. -/
theorem keyStart_eq_of_lt {N k : Nat} (h : ∀ n < N, key n < k) : keyStart key N k = N := by
  have hall : ((List.range N).map key).countP (fun x => decide (x < k)) = ((List.range N).map key).length :=
    List.countP_eq_length.2 (by simpa using h)
  rwa [List.length_map, List.length_range] at hall

/-! ### The offset of each value (R152) -/

/-- The offset at which n is placed: its bucket fills downwards from its end, and the smaller values of its key come
before it. -/
def slotOf (N n : Nat) : Nat := keyStart key N (key n + 1) - keyCount key n (key n) - 1

variable {N n m : Nat}

theorem keyStart_le_slotOf_lt (hn : n < N) :
    keyStart key N (key n) ≤ slotOf key N n ∧ slotOf key N n < keyStart key N (key n + 1) := by
  have hcount := keyCount_lt key hn
  have hend := keyStart_succ key N (key n)
  rw [slotOf]
  omega

/-- The buckets are disjoint, so an offset in a bucket belongs to a value of its key. -/
theorem slotOf_in_bucket_iff (hn : n < N) (k : Nat) :
    (keyStart key N k ≤ slotOf key N n ∧ slotOf key N n < keyStart key N (k + 1)) ↔ key n = k := by
  obtain ⟨hlo, hhi⟩ := keyStart_le_slotOf_lt key hn
  constructor
  · intro ⟨hlo', hhi'⟩
    obtain hlt | heq | hgt := Nat.lt_trichotomy (key n) k
    · exact absurd (keyStart_mono key N hlt) (hhi.trans_le' hlo').not_ge
    · exact heq
    · exact absurd (keyStart_mono key N hgt) (hhi'.trans_le' hlo).not_ge
  · rintro rfl
    exact ⟨hlo, hhi⟩

/-- Within a bucket larger values stand at lower offsets (R154 d). -/
theorem slotOf_lt_of_lt (hm : m < N) (h : n < m) (hkey : key n = key m) : slotOf key N m < slotOf key N n := by
  have hcount := keyCount_lt key h
  have hcountN := keyCount_lt key hm
  have hend := keyStart_succ key N (key m)
  rw [hkey] at hcount
  rw [slotOf, slotOf, hkey]
  omega

theorem slotOf_inj (hn : n < N) (hm : m < N) (h : slotOf key N n = slotOf key N m) : n = m := by
  have hkey : key n = key m := by
    rw [← slotOf_in_bucket_iff key hn, h, slotOf_in_bucket_iff key hm]
  obtain hlt | heq | hgt := Nat.lt_trichotomy n m
  · exact absurd h (slotOf_lt_of_lt key hm hlt hkey).ne'
  · exact heq
  · exact absurd h (slotOf_lt_of_lt key hn hgt hkey.symm).ne

theorem slotOf_lt (hn : n < N) : slotOf key N n < N :=
  (keyStart_le_slotOf_lt key hn).2.trans_le (keyStart_le key N _)

/-- The offsets of the N values are the N offsets: injective into a list of the same length. -/
theorem map_slotOf_perm (N : Nat) : ((List.range N).map (slotOf key N)).Perm (List.range N) := by
  have hnodup : ((List.range N).map (slotOf key N)).Nodup :=
    List.nodup_range.map_on fun n hn m hm => slotOf_inj key (List.mem_range.1 hn) (List.mem_range.1 hm)
  have hsub : (List.range N).map (slotOf key N) ⊆ List.range N :=
    List.forall_mem_map.2 fun n hn => List.mem_range.2 (slotOf_lt key (List.mem_range.1 hn))
  exact (hnodup.subperm hsub).perm_of_length_le (by rw [List.length_map])

end Keys

/-! ### What the passes leave (R150 to R152) -/

section Place

variable {K N : Nat} (dig : Nat → Word) (key : Nat → Nat) (hkey : ∀ n, key n < K)
include hkey

/-- The running sum of the histogram holds in slot k the end of bucket k. -/
theorem rd_runningSum_histogram {k : Nat} (hk : k < K) :
    rd (runningSum (histogram K N key)) k = keyStart key N (k + 1) := by
  have hcounts : (List.range (k + 1)).map (rd (histogram K N key)) =
      (List.range (k + 1)).map fun j => ((List.range N).map key).count j :=
    List.map_congr_left fun j hj => rd_histogram key hkey ((List.mem_range.1 hj).trans_le hk)
  rw [rd_runningSum _ hk, hcounts, sum_count_range, keyStart]

/-- From counters that hold the bucket ends, the first m placements store each value at its own offset: a later one
writes elsewhere. -/
theorem rd_foldl_place_slotOf (p : Placement K N) (hends : ∀ k < K, rd p.bkt k = keyStart key N (k + 1)) {m : Nat}
    (hm : m ≤ N) : ∀ n < m, rd ((List.range m).foldl (placeOne dig key) p).sdig (slotOf key N n) = dig n ∧
      rd ((List.range m).foldl (placeOne dig key) p).sval (slotOf key N n) = n := by
  induction m with
  | zero => exact fun n hn => absurd hn n.not_lt_zero
  | succ m ih =>
    intro n hn
    have hslot : rd ((List.range m).foldl (placeOne dig key) p).bkt (key m) - 1 = slotOf key N m := by
      rw [rd_foldl_place_bkt dig key hkey, hends _ (hkey m), slotOf, keyCount]
    rw [List.range_succ, List.foldl_append, List.foldl_cons, List.foldl_nil, placeOne_sdig, placeOne_sval, hslot,
      rd_set _ _ _ (slotOf_lt key hm), rd_set _ _ _ (slotOf_lt key hm)]
    obtain rfl | hlt := Nat.eq_or_lt_of_le (Nat.le_of_lt_succ hn)
    · rw [if_pos rfl, if_pos rfl]
      exact ⟨rfl, rfl⟩
    · have hne : slotOf key N m ≠ slotOf key N n := fun h => hlt.ne' (slotOf_inj key hm (hn.trans_le hm) h)
      rw [if_neg hne, if_neg hne]
      exact ih (Nat.le_of_succ_le hm) n hlt

/-- Every value stands at its offset, paired with its digest. -/
theorem rd_countingSort_slotOf {n : Nat} (hn : n < N) :
    rd (countingSort K N dig key).sdig (slotOf key N n) = dig n ∧
      rd (countingSort K N dig key).sval (slotOf key N n) = n :=
  rd_foldl_place_slotOf dig key hkey _ (fun _ => rd_runningSum_histogram key hkey) le_rfl n hn

end Place

/-! ### The arrays of a build (R153, R154) -/

section Build

variable (tbl : Vector Word 256)

theorem domainKey_eq {n : Nat} (hn : n < 100000) : domainKey tbl n = bucketKey (digestOf tbl n false) :=
  congrArg bucketKey (rd_ofFn _ hn)

/-- The offset at which a build stores the domain value n. -/
def buildSlot (n : Nat) : Nat := slotOf (domainKey tbl) 100000 n

theorem bucketStart_build_eq {k : Nat} (hk : k ≤ 65536) :
    bucketStart (buildIndex tbl) k = keyStart (domainKey tbl) 100000 k :=
  bucketStart_build tbl (Nat.lt_succ_of_le hk)

theorem bucketEnd_build_eq {k : Nat} (hk : k < 65536) :
    bucketEnd (buildIndex tbl) k = keyStart (domainKey tbl) 100000 (k + 1) :=
  bucketStart_build_eq tbl hk

theorem buildSlot_lt {n : Nat} (hn : n < 100000) : buildSlot tbl n < 100000 := slotOf_lt _ hn

theorem rd_placement_buildSlot {n : Nat} (hn : n < 100000) :
    rd (placement (domainDigests tbl)).sdig (buildSlot tbl n) = rd (domainDigests tbl) n ∧
      rd (placement (domainDigests tbl)).sval (buildSlot tbl n) = n :=
  rd_countingSort_slotOf (K := Config.bktN) (fun n => rd (domainDigests tbl) n) (domainKey tbl)
    (fun n => (domainKey_lt tbl n).trans (Nat.lt_succ_self _)) hn

theorem rd_build_sdig {n : Nat} (hn : n < 100000) :
    rd (buildIndex tbl).sdig (buildSlot tbl n) = digestOf tbl n false := by
  rw [buildIndex_sdig, (rd_placement_buildSlot tbl hn).1]
  exact rd_ofFn _ hn

theorem rd_build_sval {n : Nat} (hn : n < 100000) :
    (rd (buildIndex tbl).sval (buildSlot tbl n)).toNat = n := by
  rw [rd_buildIndex_sval tbl (buildSlot_lt tbl hn), (rd_placement_buildSlot tbl hn).2, toNat_ofNat_offset hn.le]

theorem map_buildSlot_perm : ((List.range 100000).map (buildSlot tbl)).Perm (List.range 100000) :=
  map_slotOf_perm (domainKey tbl) 100000

theorem exists_buildSlot_eq {j : Nat} (hj : j < 100000) : ∃ n < 100000, buildSlot tbl n = j := by
  have hmem := (map_buildSlot_perm tbl).mem_iff.2 (List.mem_range.2 hj)
  simpa only [List.mem_map, List.mem_range] using hmem

theorem buildSlot_mem_bucketRange {n k : Nat} (hn : n < 100000) (hk : k < 65536) :
    buildSlot tbl n ∈ bucketRange (buildIndex tbl) k ↔ bucketKey (digestOf tbl n false) = k := by
  rw [mem_bucketRange, bucketStart_build_eq tbl hk.le, bucketEnd_build_eq tbl hk, ← domainKey_eq tbl hn]
  exact slotOf_in_bucket_iff _ hn k

/-- A bucket's offsets are those of the domain values of its key. -/
theorem mem_bucketRange_build {k : Nat} (hk : k < 65536) (j : Nat) :
    j ∈ bucketRange (buildIndex tbl) k ↔
      ∃ n < 100000, bucketKey (digestOf tbl n false) = k ∧ buildSlot tbl n = j := by
  constructor
  · intro hj
    have hend := ((mem_bucketRange _ _ _).1 hj).2
    rw [bucketEnd_build_eq tbl hk] at hend
    obtain ⟨n, hn, rfl⟩ := exists_buildSlot_eq tbl (hend.trans_le (keyStart_le _ _ _))
    exact ⟨n, hn, (buildSlot_mem_bucketRange tbl hn hk).1 hj, rfl⟩
  · rintro ⟨n, hn, hkey, rfl⟩
    exact (buildSlot_mem_bucketRange tbl hn hk).2 hkey

theorem buildSlot_lt_of_lt {n m : Nat} (hm : m < 100000) (h : n < m)
    (hkey : bucketKey (digestOf tbl n false) = bucketKey (digestOf tbl m false)) :
    buildSlot tbl m < buildSlot tbl n :=
  slotOf_lt_of_lt _ hm h (by rwa [domainKey_eq tbl (h.trans hm), domainKey_eq tbl hm])

/-- R153: the offsets run from 0 to the size of the domain without falling. -/
theorem bucketStart_build_bounds :
    bucketStart (buildIndex tbl) 0 = 0 ∧ bucketStart (buildIndex tbl) 65536 = 100000 ∧
      ∀ k, k < 65536 → bucketStart (buildIndex tbl) k ≤ bucketEnd (buildIndex tbl) k ∧
        bucketEnd (buildIndex tbl) k = bucketStart (buildIndex tbl) (k + 1) := by
  refine ⟨?_, ?_, fun k hk => ⟨?_, rfl⟩⟩
  · rw [bucketStart_build_eq tbl (Nat.zero_le _), keyStart_zero]
  · rw [bucketStart_build_eq tbl le_rfl, keyStart_eq_of_lt _ fun n _ => domainKey_lt tbl n]
  · rw [bucketStart_build_eq tbl hk.le, bucketEnd_build_eq tbl hk]
    exact keyStart_mono _ _ k.le_succ

/-- R154 (a): a pair stands in bucket k exactly when its digest has the key k. -/
theorem pair_in_bucket_build_iff {k n : Nat} (hk : k < 65536) (hn : n < 100000) :
    (∃ j ∈ bucketRange (buildIndex tbl) k, (rd (buildIndex tbl).sval j).toNat = n ∧
        rd (buildIndex tbl).sdig j = digestOf tbl n false) ↔ bucketKey (digestOf tbl n false) = k := by
  constructor
  · rintro ⟨j, hj, hval, -⟩
    obtain ⟨n', hn', hkey, rfl⟩ := (mem_bucketRange_build tbl hk j).1 hj
    obtain rfl : n' = n := (rd_build_sval tbl hn').symm.trans hval
    exact hkey
  · intro hkey
    exact ⟨_, (buildSlot_mem_bucketRange tbl hn hk).2 hkey, rd_build_sval tbl hn, rd_build_sdig tbl hn⟩

/-- R154 (b): an offset lies in the bucket of its digest's key and in no other. -/
theorem mem_bucketRange_build_iff_key {j k : Nat} (hj : j < 100000) (hk : k < 65536) :
    j ∈ bucketRange (buildIndex tbl) k ↔ bucketKey (rd (buildIndex tbl).sdig j) = k := by
  obtain ⟨n, hn, rfl⟩ := exists_buildSlot_eq tbl hj
  rw [rd_build_sdig tbl hn]
  exact buildSlot_mem_bucketRange tbl hn hk

/-- R154 (c): each offset pairs a value with its own digest. -/
theorem rd_build_sdig_eq_dig {j : Nat} (hj : j < 100000) :
    rd (buildIndex tbl).sdig j = rd (buildIndex tbl).dig (rd (buildIndex tbl).sval j).toNat := by
  obtain ⟨n, hn, rfl⟩ := exists_buildSlot_eq tbl hj
  rw [rd_build_sdig tbl hn, rd_build_sval tbl hn, rd_dig tbl hn]

/-- R154 (c): reading SVAL at the values' offsets, which are all the offsets, gives the values back. -/
theorem build_sval_perm :
    ((List.range 100000).map fun j => (rd (buildIndex tbl).sval j).toNat).Perm (List.range 100000) := by
  have hread := (map_buildSlot_perm tbl).symm.map fun j => (rd (buildIndex tbl).sval j).toNat
  have hid : (List.range 100000).map (fun n => (rd (buildIndex tbl).sval (buildSlot tbl n)).toNat) =
      (List.range 100000).map id :=
    List.map_congr_left fun n hn => rd_build_sval tbl (List.mem_range.1 hn)
  rwa [List.map_map, Function.comp_def, hid, List.map_id] at hread

/-- R154 (d): within a bucket the values descend. -/
theorem build_sval_descends {k i j : Nat} (hk : k < 65536) (hi : i ∈ bucketRange (buildIndex tbl) k)
    (hj : j ∈ bucketRange (buildIndex tbl) k) (hij : i < j) :
    (rd (buildIndex tbl).sval j).toNat < (rd (buildIndex tbl).sval i).toNat := by
  obtain ⟨n, hn, hkn, rfl⟩ := (mem_bucketRange_build tbl hk i).1 hi
  obtain ⟨m, hm, hkm, rfl⟩ := (mem_bucketRange_build tbl hk j).1 hj
  rw [rd_build_sval tbl hn, rd_build_sval tbl hm]
  obtain hlt | rfl | hgt := Nat.lt_trichotomy m n
  · exact hlt
  · exact absurd hij (lt_irrefl _)
  · exact absurd hij (buildSlot_lt_of_lt tbl hm hgt (hkn.trans hkm.symm)).not_gt

end Build

/-- Settles O26: under the invariant the arrays are those of POLY's build, which places every domain value at an offset
of its own in the bucket of its key. -/
theorem builtIndexIsSortedPartition : Obligations.BuiltIndexIsSortedPartition := by
  unfold Obligations.BuiltIndexIsSortedPartition
  intro s ix hinv hix
  obtain rfl := hinv.builtForPoly ix hix
  rw [construction]
  refine ⟨bucketStart_build_bounds _, fun k n hk hn => ?_, fun j k hj hk => ?_, fun j => rd_build_sdig_eq_dig _,
    build_sval_perm _, fun k i j hk hi hij hj => ?_⟩
  · simpa only [mem_bucketRange, and_assoc] using pair_in_bucket_build_iff _ hk hn
  · rw [← mem_bucketRange]
    exact mem_bucketRange_build_iff_key _ hj hk
  · exact build_sval_descends _ hk ((mem_bucketRange _ _ _).2 ⟨hi, hij.trans hj⟩)
      ((mem_bucketRange _ _ _).2 ⟨hi.trans hij.le, hj⟩) hij

/-! ### The lookup (R158) -/

/-- The offsets of the looked-up digest's bucket hold all the domain values of its key, so those of the digest. -/
theorem mem_lookupSeq_build (tbl : Vector Word 256) (d : Word) (v : Offset) :
    v ∈ lookupSeq (buildIndex tbl) d ↔ v.toNat < 100000 ∧ digestOf tbl v.toNat false = d := by
  rw [mem_lookupSeq]
  constructor
  · rintro ⟨j, hj, hdig, rfl⟩
    obtain ⟨n, hn, -, rfl⟩ := (mem_bucketRange_build tbl (bucketKey_lt d) j).1 hj
    rw [rd_build_sdig tbl hn] at hdig
    rw [rd_build_sval tbl hn]
    exact ⟨hn, hdig⟩
  · rintro ⟨hv, rfl⟩
    exact ⟨_, (buildSlot_mem_bucketRange tbl hv (bucketKey_lt _)).2 rfl, rd_build_sdig tbl hv,
      BitVec.eq_of_toNat_eq (rd_build_sval tbl hv)⟩

theorem lookupSeq_build_descends (tbl : Vector Word 256) (d : Word) :
    (lookupSeq (buildIndex tbl) d).Pairwise fun v w => w.toNat < v.toNat := by
  have hscan : (bucketRange (buildIndex tbl) (bucketKey d)).Pairwise (· < ·) := List.pairwise_lt_range'
  rw [lookupSeq, List.pairwise_filterMap]
  refine hscan.imp_of_mem fun {i j} hi hj hij v hv w hw => ?_
  obtain ⟨-, ⟨⟩⟩ := Option.ite_none_right_eq_some.1 hv
  obtain ⟨-, ⟨⟩⟩ := Option.ite_none_right_eq_some.1 hw
  exact build_sval_descends tbl (bucketKey_lt d) hi hj hij

/-- A lookup does not read TBL or DIG. -/
theorem lookupSeq_congr {ix ix' : Index} (d : Word) (hsdig : ix.sdig = ix'.sdig) (hsval : ix.sval = ix'.sval)
    (hbkt : ix.bkt = ix'.bkt) : lookupSeq ix d = lookupSeq ix' d := by
  simp only [lookupSeq, bucketRange, bucketStart, bucketEnd, hsdig, hsval, hbkt]

/-- Settles O27: membership and order of a lookup are those of its bucket. -/
theorem lookupFindsExactlyThePreimages : Obligations.LookupFindsExactlyThePreimages := by
  unfold Obligations.LookupFindsExactlyThePreimages
  exact ⟨fun poly => mem_lookupSeq_build _, fun poly => lookupSeq_build_descends _, fun _ _ => lookupSeq_congr⟩

/-! ### The zero polynomial (R156) -/

/-- A table of zeros keeps the clear register clear. -/
theorem digestOf_zeroPoly (n : Nat) : digestOf (tableGen 0#32) n false = 0#32 := by
  rw [digestOf_noPad]
  induction (digits n).map digitByte with
  | nil => rfl
  | cons b bs ih =>
    rw [feed_cons, update, tblAt_tableGen_zeroPoly]
    exact ih

theorem domainKey_zeroPoly {n : Nat} (hn : n < 100000) : domainKey (tableGen 0#32) n = 0 := by
  rw [domainKey_eq _ hn, digestOf_zeroPoly]
  rfl

/-- One bucket holds the whole domain, so the n values before n stand above it. -/
theorem buildSlot_zeroPoly {n : Nat} (hn : n < 100000) : buildSlot (tableGen 0#32) n = 99999 - n := by
  have hend : keyStart (domainKey (tableGen 0#32)) 100000 1 = 100000 :=
    keyStart_eq_of_lt _ fun m hm => (domainKey_zeroPoly hm).trans_lt Nat.one_pos
  have hbefore : keyCount (domainKey (tableGen 0#32)) n 0 = n := by
    rw [keyCount, List.map_congr_left fun m hm => domainKey_zeroPoly ((List.mem_range.1 hm).trans hn),
      List.map_const', List.length_range, List.count_replicate_self]
  rw [buildSlot, slotOf, domainKey_zeroPoly hn, hend, hbefore]
  omega

/-- Settles O28: every key is 0, so bucket 0 takes all the offsets and fills downwards. -/
theorem zeroPolynomialIndex : Obligations.ZeroPolynomialIndex := by
  unfold Obligations.ZeroPolynomialIndex
  rw [construction]
  refine ⟨tblAt_tableGen_zeroPoly, digestOf_zeroPoly, (bucketStart_build_bounds _).1, fun k hk hlt => ?_,
    fun j hj => ?_⟩
  · rw [bucketStart_build_eq _ (Nat.le_of_lt_succ hlt)]
    exact keyStart_eq_of_lt _ fun n hn => (domainKey_zeroPoly hn).trans_lt hk
  · have hn : 99999 - j < 100000 := by omega
    have hslot := buildSlot_zeroPoly hn
    rw [Nat.sub_sub_self (Nat.le_of_lt_succ hj)] at hslot
    rw [← hslot, rd_build_sval _ hn, hslot]

end Sys2Proof.Machine
end

section
/-! Proofs of the statements about PrefixSearch (43_prefix_search.md), over two layers that other proofs can use: what
the text of a number hashes to, and which values a hypothesis emits on a build's arrays. -/

namespace Sys2Proof.Machine

/-! ### The value of a character and the parse of a string (R180, R181) -/

/-- Settles O30: the four ranges are the four branches of the definition. -/
theorem hexDigitValues : Obligations.HexDigitValues := by
  unfold Obligations.HexDigitValues
  refine fun c => ⟨fun hdigit => if_pos hdigit, fun hupper => ?_, fun hlower => ?_, fun hdigit hupper hlower => ?_⟩
  · rw [hexVal, if_neg (by omega), if_pos hupper]
  · rw [hexVal, if_neg (by omega), if_neg (by omega), if_pos hlower]
  · rw [hexVal, if_neg hdigit, if_neg hupper, if_neg hlower]

theorem toNat_hashShift (acc : Word) (c : Byte) :
    (hashShift acc c).toNat = (acc.toNat <<< 4 ||| hexVal c) % 2 ^ 32 := by
  rw [hashShift, BitVec.toNat_or, BitVec.toNat_shiftLeft, BitVec.toNat_ofNat, Nat.or_mod_two_pow]

/-- Settles O31: a string parses to the word of its digits' value. -/
theorem hashStringParsesModuloWord : Obligations.HashStringParsesModuloWord := by
  unfold Obligations.HashStringParsesModuloWord
  refine ⟨toNat_hashShift, fun cs => ?_⟩
  rw [foldl_hashShift_zero, BitVec.toNat_ofNat]

/-- The lower-case character of a hexadecimal digit. -/
def hexChar (d : Nat) : Byte := BitVec.ofNat 8 (if d < 10 then 0x30 + d else 0x57 + d)

theorem hexVal_hexChar {d : Nat} (h : d < 16) : hexVal (hexChar d) = d := by
  interval_cases d <;> rfl

/-- The n lowest base-b digits of w are those of w modulo b^n. -/
theorem ofDigits_lowDigits (b w n : Nat) :
    Nat.ofDigits b ((List.range n).map fun k => w / b ^ k % b) = w % b ^ n := by
  induction n with
  | zero => rw [pow_zero, Nat.mod_one]; rfl
  | succ n ih =>
    rw [List.range_succ, List.map_append, Nat.ofDigits_append, ih, List.length_map, List.length_range, Nat.mod_pow_succ,
      List.map_cons, List.map_nil, Nat.ofDigits_singleton]

/-- The n lowest hexadecimal digits of w as characters, most significant first. -/
def hexText (n w : Nat) : List Byte := (List.range n).map fun k => hexChar (w / 16 ^ (n - 1 - k) % 16)

theorem hexVal_reverse_hexText (n w : Nat) :
    (hexText n w).reverse.map hexVal = (List.range n).map fun k => w / 16 ^ k % 16 := by
  rw [hexText, ← List.map_reverse, List.range_eq_range', List.reverse_range', List.map_map, List.map_map,
    ← List.range_eq_range']
  refine List.map_congr_left fun k hk => ?_
  have hk' : n - 1 - (0 + n - 1 - k) = k := by rw [List.mem_range] at hk; omega
  rw [Function.comp_apply, Function.comp_apply, hk', hexVal_hexChar (Nat.mod_lt _ (by decide))]

/-- A text of hexadecimal digits parses to the digits' value. -/
theorem foldl_hashShift_hexText (n w : Nat) : (hexText n w).foldl hashShift 0#32 = BitVec.ofNat 32 (w % 16 ^ n) := by
  rw [foldl_hashShift_zero, hexVal_reverse_hexText, ofDigits_lowDigits]

/-! ### The commands on HASH_ACC (R183 to R185) -/

/-- A command that does not need BUILT and writes HASH_ACC: its refusal, and its effect with all it leaves unchanged. -/
theorem exec_hashAcc {i : Instr} {f : State → Word} (hexec : ∀ s, exec i s = issue s fun t => t.setHashAcc (f t)) :
    (∀ s : State, s.cur ≠ .none → exec i s = .next { s with err := .busy }) ∧
    (∀ s : State, s.cur = .none → exec i s = .next { s with err := .none, hashAcc := f s.accept }) := by
  simp only [hexec, ← busy_eq_false_iff, ← busy_eq_true_iff]
  exact ⟨fun _ hbusy => issue_of_busy _ hbusy, fun _ hidle => issue_of_idle _ hidle⟩

/-- Settles O32: the two branches of the issue. -/
theorem hashResetClearsAccumulator : Obligations.HashResetClearsAccumulator := by
  unfold Obligations.HashResetClearsAccumulator
  obtain ⟨hbusy, hidle⟩ := exec_hashAcc exec_hashReset
  exact ⟨decode_encode .hashReset, hbusy, hidle, BitVec.zero_xor⟩

/-- Settles O33: the two branches of the issue; a digit 0 leaves the shifted accumulator. -/
theorem hashCharShiftsInDigit : Obligations.HashCharShiftsInDigit := by
  unfold Obligations.HashCharShiftsInDigit
  obtain ⟨hbusy, hidle⟩ := exec_hashAcc exec_hashChar
  refine ⟨decode_encode .hashChar, hbusy, hidle, fun acc c hzero => ?_, by decide⟩
  rw [hashShift, hzero]
  exact BitVec.or_zero

/-- Settles O34: the two branches of the issue; a word is the value of its eight hexadecimal digits. -/
theorem hashLoadEqualsEightDigits : Obligations.HashLoadEqualsEightDigits := by
  unfold Obligations.HashLoadEqualsEightDigits
  obtain ⟨hbusy, hidle⟩ := exec_hashAcc exec_hashLoad
  exact ⟨decode_encode .hashLoad, hbusy, hidle,
    fun w => (foldl_hashShift_hexText 8 w.toNat).trans (ofNat_toNat_mod w)⟩

/-! ### The registers P_i and the hypotheses (R187, R188) -/

theorem update_zeroPoly (s : Word) (b : Byte) : update (tableGen 0#32) s b = s >>> 8 := by
  rw [update, tblAt_tableGen_zeroPoly, BitVec.zero_xor]

theorem prefixReg_zeroPoly (i : Nat) : prefixReg (tableGen 0#32) i = 0xFFFFFFFF#32 >>> (8 * i) := by
  induction i with
  | zero => rfl
  | succ i ih => rw [prefixReg_succ, update_zeroPoly, ih, Nat.mul_succ, BitVec.shiftRight_add]

theorem crackHyp_low (ix : Index) (target : Word) {i : Nat} (h : i < 6) :
    crackHyp ix target i = lookupWords ix (target ^^^ prefixReg ix.tbl i) := if_pos h

theorem crackHyp_high (ix : Index) (target : Word) {i : Nat} (h : 6 ≤ i) :
    crackHyp ix target i = (highPrefixes i).flatMap fun p =>
      (lookupSeq ix (target ^^^ prefixReg ix.tbl i ^^^ digestOf ix.tbl p true)).map (candidate p) := if_neg h.not_gt

/-- Settles O35: the registers by their rolling step, the hypotheses by the two branches of their definition. -/
theorem crackSeqFollowsTheHypotheses : Obligations.CrackSeqFollowsTheHypotheses := by
  unfold Obligations.CrackSeqFollowsTheHypotheses
  have hprinted : (List.range' 1 9).map (prefixReg (tableGen 0xEDB88320#32)) =
      [0x0B2420DE#32, 0x47B9EB5F#32, 0xDD4AC522#32, 0xF3643B8D#32, 0xB523AB0A#32, 0xC6B9FA19#32, 0x42742196#32,
        0x3FF772FC#32, 0x92ED79E9#32] := by
    simp [List.range', prefixReg_succ, Config.pregInit, Config.padByte, update_tableGen, tableEntry, tableStep]
  refine ⟨prefixReg_zero, prefixReg_succ, hprinted, prefixReg_zeroPoly, fun ix target i => crackHyp_low ix target,
    fun ix target i => crackHyp_high ix target, fun ix target => ?_⟩
  simp [crackSeq, Config.hypMax, List.range', List.append_assoc]

/-! ### The text of a number (R126, R192) -/

/-- The L-character decimal text of n. -/
def decimalText (L n : Nat) : List Byte := (List.leftpad L 0 (digits n)).map fun d => 0x30#8 ^^^ digitByte d

theorem decimalText_of_digits {L n : Nat} (h : L ≤ (digits n).length) :
    decimalText L n = (digits n).map fun d => 0x30#8 ^^^ digitByte d := by
  rw [decimalText, List.leftpad, Nat.sub_eq_zero_of_le h, List.replicate_zero, List.nil_append]

/-- XORing with a known word moves it to the other side. -/
theorem xor_eq_iff_eq_xor {w : Nat} (a b c : BitVec w) : a ^^^ b = c ↔ b = c ^^^ a := by
  constructor
  · rintro rfl
    rw [BitVec.xor_comm a, BitVec.xor_assoc, BitVec.xor_self, BitVec.xor_zero]
  · rintro rfl
    rw [BitVec.xor_comm, BitVec.xor_assoc, BitVec.xor_self, BitVec.xor_zero]

/-- A text hashes to h exactly when its number's digest is the one the hypothesis of its width looks for. -/
theorem hash_decimalText_iff (poly h : Word) {L n : Nat} (hn : n < 10 ^ L) :
    feed (tableGen poly) 0xFFFFFFFF#32 (decimalText L n) ^^^ 0xFFFFFFFF#32 = h ↔
      digestOf (tableGen poly) n false = targetOf h ^^^ prefixReg (tableGen poly) L := by
  have hreg : feed (tableGen poly) 0xFFFFFFFF#32 (decimalText L n) =
      prefixReg (tableGen poly) L ^^^ digestOf (tableGen poly) n false := textRegisterIsPrefixXorDigest poly L n hn
  rw [hreg, BitVec.xor_comm _ 0xFFFFFFFF#32, xor_eq_iff_eq_xor, xor_eq_iff_eq_xor]
  rfl

/-! ### The candidates on a build's arrays (R189, R190) -/

section Candidates

variable (poly target : Word)

/-- A short hypothesis emits the domain values with its digest. -/
theorem mem_crackHyp_low_build {i : Nat} (h : i < 6) (c : OutWord) :
    c ∈ crackHyp (construction poly) target i ↔
      c.toNat < 100000 ∧ digestOf (tableGen poly) c.toNat false = target ^^^ prefixReg (tableGen poly) i := by
  rw [mem_crackHyp_low h, construction, construct_tbl]
  constructor
  · rintro ⟨v, hv, rfl⟩
    rw [BitVec.toNat_setWidth_of_le (by decide)]
    exact (mem_lookupSeq_build _ _ v).1 hv
  · intro hc
    have hval : (BitVec.ofNat 17 c.toNat).toNat = c.toNat := toNat_ofNat_offset hc.1.le
    refine ⟨BitVec.ofNat 17 c.toNat, (mem_lookupSeq_build _ _ _).2 (by rwa [hval]), BitVec.eq_of_toNat_eq ?_⟩
    rw [BitVec.toNat_setWidth_of_le (by decide), hval]

/-- A long hypothesis runs over the high parts of the values with as many digits as the hypothesis. -/
theorem mem_highPrefixes_iff {i p v : Nat} (h : 6 ≤ i) (hv : v < 100000) :
    p ∈ highPrefixes i ↔ 10 ^ (i - 1) ≤ p * 100000 + v ∧ p * 100000 + v < 10 ^ i := by
  obtain ⟨m, rfl⟩ := Nat.exists_eq_add_of_le' h
  have hlow : 10 ^ (m + 6 - 1) = 10 ^ m * 100000 := pow_add 10 m 5
  have hhigh : 10 ^ (m + 6) = 10 ^ (m + 1) * 100000 := pow_add 10 (m + 1) 5
  have hle : 10 ^ m ≤ 10 ^ (m + 1) := Nat.pow_le_pow_right (by decide) m.le_succ
  have hend : 10 ^ (m + 6 - 5) = 10 ^ (m + 1) := rfl
  rw [highPrefixes, List.mem_range'_1, Nat.add_sub_cancel, hend, hlow, hhigh]
  omega

theorem pos_of_mem_highPrefixes {i p : Nat} (h : p ∈ highPrefixes i) : 0 < p :=
  (Nat.pow_pos (by decide)).trans_le (List.mem_range'_1.1 h).1

theorem toNat_candidate {p : Nat} {v : Offset} (h : p * 100000 + v.toNat < 10 ^ 9) :
    (candidate p v).toNat = p * 100000 + v.toNat := by
  rw [candidate, BitVec.toNat_ofNat]
  exact Nat.mod_eq_of_lt (h.trans (by decide))

/-- A FIFO word is the candidate of its high part and its low five digits. -/
theorem exists_candidate_eq (c : OutWord) :
    ∃ (p : Nat) (v : Offset), v.toNat < 100000 ∧ c.toNat = p * 100000 + v.toNat ∧ candidate p v = c := by
  have hlt : c.toNat % 100000 < 100000 := Nat.mod_lt _ (by decide)
  have hval : (BitVec.ofNat 17 (c.toNat % 100000)).toNat = c.toNat % 100000 := toNat_ofNat_offset hlt.le
  refine ⟨c.toNat / 100000, BitVec.ofNat 17 (c.toNat % 100000), by rwa [hval], ?_, ?_⟩
  · rw [hval, Nat.div_add_mod']
  · rw [candidate, hval, Nat.div_add_mod', BitVec.ofNat_toNat, BitVec.setWidth_eq]

/-- A long hypothesis emits the values with as many digits as the hypothesis and with its digest. -/
theorem mem_crackHyp_high_build {i : Nat} (h6 : 6 ≤ i) (h9 : i ≤ 9) (c : OutWord) :
    c ∈ crackHyp (construction poly) target i ↔ (10 ^ (i - 1) ≤ c.toNat ∧ c.toNat < 10 ^ i) ∧
      digestOf (tableGen poly) c.toNat false = target ^^^ prefixReg (tableGen poly) i := by
  have hpow : 10 ^ i ≤ 10 ^ 9 := Nat.pow_le_pow_right (by decide) h9
  rw [mem_crackHyp_high h6, construction, construct_tbl]
  constructor
  · rintro ⟨p, hp, v, hv, rfl⟩
    obtain ⟨hlt, hdig⟩ := (mem_lookupSeq_build _ _ v).1 hv
    have hrange := (mem_highPrefixes_iff h6 hlt).1 hp
    rw [toNat_candidate (hrange.2.trans_le hpow), digestOf_mul_add poly (pos_of_mem_highPrefixes hp) hlt]
    exact ⟨hrange, (xor_eq_iff_eq_xor _ _ _).2 hdig⟩
  · rintro ⟨hrange, hdig⟩
    obtain ⟨p, v, hlt, hsplit, rfl⟩ := exists_candidate_eq c
    rw [hsplit] at hrange hdig
    have hp := (mem_highPrefixes_iff h6 hlt).2 hrange
    rw [digestOf_mul_add poly (pos_of_mem_highPrefixes hp) hlt, xor_eq_iff_eq_xor] at hdig
    exact ⟨p, hp, v, (mem_lookupSeq_build _ _ v).2 ⟨hlt, hdig⟩, rfl⟩

end Candidates

/-- Settles O37: a value is emitted when its digest is the one looked for, which is when its text hashes to h. -/
theorem candidatesAreSoundAndComplete : Obligations.CandidatesAreSoundAndComplete := by
  unfold Obligations.CandidatesAreSoundAndComplete
  refine fun poly h i _ h9 => ⟨fun v hv hlow => ?_, fun v hv hhigh => ?_, fun n hn hwide htext => ?_⟩
  · obtain ⟨hlt, hdig⟩ := (mem_crackHyp_low_build _ _ hlow v).1 hv
    exact ⟨hlt, hdig, fun hfits => (hash_decimalText_iff poly h hfits).2 hdig⟩
  · obtain ⟨⟨hlo, hhi⟩, hdig⟩ := (mem_crackHyp_high_build _ _ hhigh h9 v).1 hv
    have hlen : i ≤ (digits v.toNat).length := Nat.le_of_pred_lt (lt_length_digits_iff.2 hlo)
    refine ⟨hlo, hhi, ?_⟩
    rw [← decimalText_of_digits hlen]
    exact (hash_decimalText_iff poly h hhi).2 hdig
  · have hdig := (hash_decimalText_iff poly h hn).1 htext
    have hpow : 10 ^ i ≤ 10 ^ 9 := Nat.pow_le_pow_right (by decide) h9
    have hval : (BitVec.ofNat 30 n).toNat = n := by
      rw [BitVec.toNat_ofNat]
      exact Nat.mod_eq_of_lt ((hn.trans_le hpow).trans (by decide))
    obtain hlow | hhigh := Nat.lt_or_ge i 6
    · have hfive : 10 ^ i ≤ 10 ^ 5 := Nat.pow_le_pow_right (by decide) (Nat.le_of_lt_succ hlow)
      rw [mem_crackHyp_low_build _ _ hlow, hval]
      exact ⟨hn.trans_le hfive, hdig⟩
    · rw [mem_crackHyp_high_build _ _ hhigh h9, hval]
      exact ⟨⟨hwide hhigh, hn⟩, hdig⟩

/-! ### The bounds (R193) -/

theorem crackSeq_build_lt {poly target : Word} {c : OutWord} (hc : c ∈ crackSeq (construction poly) target) :
    c.toNat < 10 ^ 9 := by
  obtain ⟨i, ⟨-, h9⟩, hmem⟩ := (mem_crackSeq c).1 hc
  obtain hlow | hhigh := Nat.lt_or_ge i 6
  · exact ((mem_crackHyp_low_build _ _ hlow c).1 hmem).1.trans (by decide)
  · obtain ⟨⟨-, hlt⟩, -⟩ := (mem_crackHyp_high_build _ _ hhigh h9 c).1 hmem
    exact hlt.trans_le (Nat.pow_le_pow_right (by decide) h9)

/-- A bucket of a build ends within the domain. -/
theorem length_lookupSeq_build_le (tbl : Vector Word 256) (d : Word) :
    (lookupSeq (buildIndex tbl) d).length ≤ 100000 := by
  refine (List.length_filterMap_le _ _).trans ?_
  rw [bucketRange, List.length_range', bucketEnd_build_eq tbl (bucketKey_lt d)]
  exact (Nat.sub_le _ _).trans (keyStart_le _ _ _)

/-- How many lookups a hypothesis makes. -/
def hypLookups (i : Nat) : Nat := if i < 6 then 1 else 10 ^ (i - 5) - 10 ^ (i - 6)

theorem length_crackHyp_build_le (poly target : Word) (i : Nat) :
    (crackHyp (construction poly) target i).length ≤ hypLookups i * 100000 := by
  rw [hypLookups, construction]
  obtain hlow | hhigh := Nat.lt_or_ge i 6
  · rw [crackHyp_low _ _ hlow, if_pos hlow, lookupWords, List.length_map, Nat.one_mul]
    exact length_lookupSeq_build_le _ _
  · rw [crackHyp_high _ _ hhigh, if_neg hhigh.not_gt]
    refine (length_flatMap_le (b := 100000) fun p _ => ?_).trans_eq (by rw [highPrefixes, List.length_range'])
    rw [List.length_map]
    exact length_lookupSeq_build_le _ _

/-- Settles O36: hypotheses 1 to 9 make 10,004 lookups, each of at most 100,000 values. -/
theorem candidatesAreBounded : Obligations.CandidatesAreBounded := by
  unfold Obligations.CandidatesAreBounded
  refine fun poly target => ⟨fun c => crackSeq_build_lt, ?_⟩
  rw [crackSeq, List.length_flatMap]
  refine (List.sum_le_sum fun i _ => length_crackHyp_build_le poly target i).trans ?_
  decide

/-! ### Two machines (R196) -/

/-- In a reachable idle built state a CRACK searches the arrays of POLY for HASH_ACC. -/
theorem exec_crack_of_inv {s : State} (hinv : Inv s) (hidle : s.cur = .none) (hbuilt : s.built = true) :
    ∃ t, exec .crack s = .next t ∧ t.pend = crackSeq (construction s.poly) (targetOf s.hashAcc) ∧
      t.index = some (construction s.poly) := by
  obtain ⟨ix, hix⟩ := (built_eq_true_iff s).1 hbuilt
  obtain rfl := hinv.builtForPoly ix hix
  exact ⟨_, (exec_crack s).trans (issueBuilt_of_built _ ((busy_eq_false_iff s).2 hidle) hix), rfl, hix⟩

/-- Settles O39: the sequence and the arrays are functions of POLY and HASH_ACC. -/
theorem samePolynomialSameCandidates : Obligations.SamePolynomialSameCandidates := by
  unfold Obligations.SamePolynomialSameCandidates
  intro s t hs ht hsIdle htIdle hsBuilt htBuilt hpoly hhash
  obtain ⟨u, hu, huPend, huIndex⟩ := exec_crack_of_inv hs hsIdle hsBuilt
  obtain ⟨v, hv, hvPend, hvIndex⟩ := exec_crack_of_inv ht htIdle htBuilt
  refine ⟨u, v, hu, hv, ?_, ?_⟩
  · rw [huPend, hvPend, hpoly, hhash]
  · rw [huIndex, hvIndex, hpoly]

end Sys2Proof.Machine
end

section
/-! Proof that every step keeps the invariant (44_engine_control.md R224 to R230), over a layer that other proofs can use:
what a search has to push, and one lemma per change of the state that the invariant speaks of. -/

namespace Sys2Proof.Machine

/-! ### What a search has to push (R227, R230) -/

theorem searchOutput_of_notSearching {s : State} (h : s.searching = false) : s.searchOutput = none := by
  revert h
  unfold State.searching State.searchOutput
  cases s.cur <;> simp

theorem searchOutput_lookup {s : State} {ix : Index} (hcur : s.cur = .lookup) (hix : s.index = some ix) :
    s.searchOutput = some (lookupWords ix s.opnd) := by
  rw [State.searchOutput, hcur, hix]

theorem searchOutput_crack {s : State} {ix : Index} (hcur : s.cur = .crack) (hix : s.index = some ix) :
    s.searchOutput = some (crackSeq ix s.tgt) := by
  rw [State.searchOutput, hcur, hix]

theorem length_lookupWords (ix : Index) (d : Word) : (lookupWords ix d).length = (lookupSeq ix d).length :=
  List.length_map ..

/-- A search on built arrays has an output, and CAND_COUNT can count it. -/
theorem exists_searchOutput {s : State} (hsearch : s.searching = true) (hbuilt : s.built = true) :
    ∃ out, s.searchOutput = some out ∧ out.length < 2 ^ 32 := by
  obtain ⟨ix, hix⟩ := (built_eq_true_iff s).1 hbuilt
  obtain hcur | hcur := (searching_eq_true_iff s).1 hsearch
  · refine ⟨_, searchOutput_lookup hcur hix, ?_⟩
    rw [length_lookupWords]
    exact (length_lookupSeq_le _ _).trans_lt (by decide)
  · exact ⟨_, searchOutput_crack hcur hix, length_crackSeq_lt _ _⟩

theorem lookupWords_lt {ix : Index} {d : Word} {c : OutWord} (h : c ∈ lookupWords ix d) :
    c.toNat < Config.candLimit := by
  obtain ⟨v, -, rfl⟩ := List.mem_map.1 h
  rw [BitVec.toNat_setWidth_of_le (by decide)]
  exact v.isLt.trans (by decide)

/-! ### The invariant, step by step -/

/-- Before a push CAND_COUNT is below the length of the search's output, so it does not wrap. -/
theorem toNat_candCount_push {s : State} (hinv : Inv s) (hsearch : s.searching = true) {v : OutWord}
    {rest : List OutWord} (hpend : s.pend = v :: rest) :
    (s.candCount + 1#32).toNat = s.candCount.toNat + 1 := by
  obtain ⟨out, hout, hlen⟩ := exists_searchOutput hsearch (hinv.searchBuilt hsearch)
  obtain ⟨popped, rfl, hcount⟩ := hinv.searchProgress out hout
  rw [hpend, List.length_append, List.length_append, List.length_cons, ← hcount] at hlen
  have hlt : s.candCount.toNat + 1 < 2 ^ 32 := by omega
  exact BitVec.toNat_add_of_lt hlt

/-- The last word pushed, CAND_COUNT is the length of the whole output. -/
theorem candCount_of_allPushed {s : State} (hinv : Inv s) (hpend : s.pend = []) {out : List OutWord}
    (hout : s.searchOutput = some out) : s.candCount.toNat = out.length := by
  obtain ⟨popped, rfl, hcount⟩ := hinv.searchProgress out hout
  rw [hcount, hpend, List.append_nil, List.length_append]

theorem inv_completion {s : State} (hinv : Inv s) (hcur : s.cur = .construct) : Inv (constructDone s) where
  fifoBounded := hinv.fifoBounded
  levelCounted := hinv.levelCounted
  pendOnlyInSearch _ := hinv.pendOnlyInSearch (by rw [State.searching, hcur])
  constructUnbuilt h := nomatch h
  constructOperand h := nomatch h
  searchBuilt h := nomatch h
  builtForPoly _ h := (Option.some.inj h).symm
  searchProgress _ h := nomatch h
  wordsBelow := hinv.wordsBelow

theorem inv_finish {s : State} (hinv : Inv s) (hpend : s.pend = []) : Inv s.endSearch where
  fifoBounded := hinv.fifoBounded
  levelCounted := hinv.levelCounted
  pendOnlyInSearch _ := hpend
  constructUnbuilt h := nomatch h
  constructOperand h := nomatch h
  searchBuilt h := nomatch h
  builtForPoly := hinv.builtForPoly
  searchProgress _ h := nomatch h
  wordsBelow := hinv.wordsBelow

/-- A push moves the head of PEND to the tail of OUTQ: the output keeps its order and one more word is counted. -/
theorem inv_push {s : State} (hinv : Inv s) (hsearch : s.searching = true) {v : OutWord} {rest : List OutWord}
    (hpend : s.pend = v :: rest) (hroom : s.outq.length < Config.outDepth) : Inv ((s.setPend rest).push v) where
  fifoBounded := by simpa using hroom
  levelCounted := by simpa [toNat_candCount_push hinv hsearch hpend] using hinv.levelCounted
  pendOnlyInSearch h := absurd hsearch (Bool.eq_false_iff.1 h)
  constructUnbuilt := hinv.constructUnbuilt
  constructOperand := hinv.constructOperand
  searchBuilt := hinv.searchBuilt
  builtForPoly := hinv.builtForPoly
  searchProgress out hout := by
    obtain ⟨popped, rfl, hcount⟩ := hinv.searchProgress out hout
    refine ⟨popped, by simp [hpend], ?_⟩
    simp [toNat_candCount_push hinv hsearch hpend, hcount, Nat.add_assoc]
  wordsBelow := by simpa [hpend] using hinv.wordsBelow

theorem pop_of_nil {s : State} (h : s.outq = []) : s.pop = s := by rw [State.pop, h, List.tail_nil, ← h]

/-- A pop hands the head of OUTQ over to what the host has taken. -/
theorem inv_pop {s : State} (hinv : Inv s) : Inv s.pop := by
  cases hq : s.outq with
  | nil => rwa [pop_of_nil hq]
  | cons v rest =>
    have hpop : s.pop.outq = rest := by rw [State.pop_outq, hq, List.tail_cons]
    have hlen : s.outq.length = rest.length + 1 := by rw [hq, List.length_cons]
    exact { hinv with
      fifoBounded := by have := hinv.fifoBounded; rw [hpop]; omega
      levelCounted := by have := hinv.levelCounted; rw [hpop, State.pop_candCount]; omega
      searchProgress := fun out hout => by
        obtain ⟨popped, rfl, hcount⟩ := hinv.searchProgress out hout
        refine ⟨popped ++ [v], by simp [hq], ?_⟩
        rw [hpop, State.pop_candCount, hcount, hlen, List.length_append, List.length_singleton]
        omega
      wordsBelow := fun w hw => hinv.wordsBelow w (by
        rw [hpop, State.pop_pend] at hw
        rw [hq]
        exact List.mem_cons_of_mem v hw) }

theorem inv_beginConstruct {s : State} (hinv : Inv s) (hidle : s.cur = .none) (w : Word) :
    Inv (s.beginConstruct w) where
  fifoBounded := hinv.fifoBounded
  levelCounted := hinv.levelCounted
  pendOnlyInSearch _ := hinv.pendOnlyInSearch (by rw [State.searching, hidle])
  constructUnbuilt _ := rfl
  constructOperand _ := rfl
  searchBuilt h := nomatch h
  builtForPoly _ h := nomatch h
  searchProgress _ h := nomatch h
  wordsBelow := hinv.wordsBelow

/-- A search begins with nothing pushed and its whole output pending. -/
theorem inv_beginSearch {s : State} {cur : Cur} {words : List OutWord} (hcur : cur ≠ .construct)
    (hbuilt : s.built = true) (hpoly : ∀ ix, s.index = some ix → ix = construction s.poly)
    (hout : (s.beginSearch cur words).searchOutput = some words) (hbelow : ∀ v ∈ words, v.toNat < Config.candLimit) :
    Inv (s.beginSearch cur words) where
  fifoBounded := Nat.zero_le _
  levelCounted := Nat.zero_le _
  pendOnlyInSearch h := by rw [searchOutput_of_notSearching h] at hout; cases hout
  constructUnbuilt h := absurd h hcur
  constructOperand h := absurd h hcur
  searchBuilt _ := hbuilt
  builtForPoly := hpoly
  searchProgress out h := ⟨[], Option.some.inj (h.symm.trans hout), rfl⟩
  wordsBelow := hbelow

theorem inv_accepted {i : Instr} {s t : State} (hinv : Inv s) (hidle : s.cur = .none) (hacc : Accepted i s t) :
    Inv t := by
  cases i with
  | construct =>
    obtain rfl := hacc
    exact inv_beginConstruct (s := s.accept) { hinv with } hidle _
  | hashReset | hashChar | hashLoad | resultLoad =>
    obtain rfl := hacc
    exact { hinv with }
  | tableRead | crcUpdate | digest | digestPad =>
    obtain ⟨ix, -, rfl⟩ := hacc
    exact { hinv with }
  | lookup =>
    obtain ⟨ix, hix, rfl⟩ := hacc
    exact inv_beginSearch (by decide) ((built_eq_true_iff s).2 ⟨ix, hix⟩) hinv.builtForPoly
      (searchOutput_lookup rfl hix) fun v => lookupWords_lt
  | crack =>
    obtain ⟨ix, hix, rfl⟩ := hacc
    have hbelow : ∀ v ∈ crackSeq ix (targetOf s.hashAcc), v.toNat < Config.candLimit := by
      rw [hinv.builtForPoly ix hix]
      exact fun v => crackSeq_build_lt
    exact inv_beginSearch (by decide) ((built_eq_true_iff s).2 ⟨ix, hix⟩) hinv.builtForPoly
      (searchOutput_crack rfl hix) hbelow

/-- The turn, the host's list and the bus's answer are no part of the invariant. -/
theorem inv_afterTurn {s : State} (hinv : Inv s) (ops : List HostOp) (r : Response) : Inv (s.afterTurn ops r) :=
  { hinv with }

theorem inv_move {s t : State} (hinv : Inv s) (m : Move s t) : Inv t := by
  cases m with
  | completion hcur => exact inv_completion (inv_afterTurn hinv _ _) hcur
  | finish _ hpend => exact inv_finish (inv_afterTurn hinv _ _) hpend
  | push hsearch hpend hroom => exact inv_push (inv_afterTurn hinv _ _) hsearch hpend hroom
  | quiet ops r => exact inv_afterTurn hinv ops r
  | pop ops => exact inv_afterTurn (inv_pop hinv) ops _
  | stage | refusal => exact { hinv with }
  | issue _ hidle hacc => exact inv_accepted (inv_afterTurn hinv _ _) hidle hacc

theorem step_of_resetTurn {s : State} (h : s.sched.head? = some .reset) :
    step s = .next (s.setSched s.sched.tail).resetCore :=
  stepWith_resetTurn (List.eq_cons_of_mem_head? h)

theorem inv_resetCore (s : State) : Inv s.resetCore := { invariantHoldsAtReset with }

/-- Settles O57: a reset leaves the reset state, and each of the other moves keeps the invariant. -/
theorem stepKeepsInvariant : Obligations.StepKeepsInvariant := by
  unfold Obligations.StepKeepsInvariant
  intro s t hinv h
  by_cases hr : s.sched.head? = some .reset
  · obtain rfl := Host.Outcome.next.inj ((step_of_resetTurn hr).symm.trans h)
    exact inv_resetCore _
  · exact inv_move hinv (move_of_step hr h)

end Sys2Proof.Machine
end

section
/-! Proofs of the statements about the engine and its FIFO (44_engine_control.md), over layers that other proofs can use:
the pop of OUT_DATA, the engine's step under each of its conditions, and that every step has a next state. -/

namespace Sys2Proof.Machine

/-! ### OUT_DATA (R231) -/

/-- VALID stands above the 30 bits of the word (10_state.md R27): an append is the OR of its two parts in place. -/
theorem outDataOf_eq (v : OutWord) : outDataOf v = 0x80000000#32 ||| v.setWidth 32 := rfl

theorem outData_of_nil {s : State} (h : s.outq = []) : s.outData = 0#32 := by rw [State.outData, h]

theorem outData_of_cons {s : State} {v : OutWord} {rest : List OutWord} (h : s.outq = v :: rest) :
    s.outData = 0x80000000#32 ||| v.setWidth 32 := by
  rw [State.outData, h]; exact outDataOf_eq v

theorem hostOp_read_outData (depth : Nat) (s : State) :
    hostOp depth (.access (.read 0x10 4)) s = .next (s.pop.respond (.data s.outData)) :=
  hostOp_read_of_readWindow rfl

/-- Settles O52: the pop of an empty FIFO changes nothing. -/
theorem outDataReadPops : Obligations.OutDataReadPops := by
  unfold Obligations.OutDataReadPops
  refine fun depth s => ⟨fun hnil => ?_, fun v rest hcons => ?_⟩
  · rw [hostOp_read_outData, pop_of_nil hnil, outData_of_nil hnil]; rfl
  · rw [hostOp_read_outData, outData_of_cons hcons, State.pop, hcons]; rfl

/-! ### The host's write of a command (R220) -/

/-- Settles O6: the host's turn performs the write, and the write of the command's word is the command. -/
theorem stepRunsDecodedCommand : Obligations.StepRunsDecodedCommand := by
  unfold Obligations.StepRunsDecodedCommand
  intro s v i rest hq hturn hv
  exact (hostTurnPerformsNextOperation s _ rest hq hturn).trans (issueCommand_of_decode hv _)

/-- Settles O29: the branches of the two searches' issue. -/
theorem searchIssueFillsPend : Obligations.SearchIssueFillsPend := by
  unfold Obligations.SearchIssueFillsPend
  simp only [exec_lookup, exec_crack, ← busy_eq_false_iff, ← busy_eq_true_iff]
  exact ⟨decode_encode .lookup, decode_encode .crack, fun _ hbusy => issueBuilt_of_busy _ hbusy,
    fun _ hbusy => issueBuilt_of_busy _ hbusy, fun _ hidle hnone => issueBuilt_of_unbuilt _ hidle hnone,
    fun _ hidle hnone => issueBuilt_of_unbuilt _ hidle hnone, fun _ _ hidle hix => issueBuilt_of_built _ hidle hix,
    fun _ _ hidle hix => issueBuilt_of_built _ hidle hix⟩

/-! ### The engine's steps (R225, R226, R228, R230) -/

theorem engineStep_of_construct (depth : Nat) {s : State} (h : s.cur = .construct) :
    engineStep depth s = some (constructDone s) := by
  rw [engineStep, h]

theorem engineStep_of_searching (depth : Nat) {s : State} (h : s.searching = true) :
    engineStep depth s = searchStep depth s := by
  obtain hcur | hcur := (searching_eq_true_iff s).1 h <;> rw [engineStep, hcur]

/-- Settles O42: the branches of the engine's step. -/
theorem engineStepsExactly : Obligations.EngineStepsExactly := by
  unfold Obligations.EngineStepsExactly
  simp only [← searching_eq_true_iff]
  refine fun depth s => ⟨engineStep_of_idle depth, engineStep_of_construct depth, fun hsearch hpend => ?_,
    fun v rest hsearch hpend hroom => ?_, fun hsearch hpend hfull => ?_⟩
  · exact (engineStep_of_searching depth hsearch).trans (searchStep_of_noWord depth hpend)
  · exact (engineStep_of_searching depth hsearch).trans (searchStep_of_room hpend hroom)
  · obtain ⟨v, rest, hpend⟩ := List.exists_cons_of_ne_nil hpend
    exact (engineStep_of_searching depth hsearch).trans (searchStep_of_full hpend hfull.not_gt)

/-- Settles O43: Finish leaves CAND_COUNT, which then counts the whole output. -/
theorem finishedSearchCountsItsOutput : Obligations.FinishedSearchCountsItsOutput := by
  unfold Obligations.FinishedSearchCountsItsOutput
  intro s ix hinv hix hpend
  have hfinish (hsearch : s.searching = true) : engineStep Config.outDepth s = some s.endSearch :=
    (engineStep_of_searching _ hsearch).trans (searchStep_of_noWord _ hpend)
  refine ⟨fun hcur => ⟨_, hfinish ((searching_eq_true_iff s).2 (.inl hcur)), rfl, ?_⟩,
    fun hcur => ⟨_, hfinish ((searching_eq_true_iff s).2 (.inr hcur)), rfl, ?_⟩⟩
  · rw [← length_lookupWords]
    exact candCount_of_allPushed hinv hpend (searchOutput_lookup hcur hix)
  · exact candCount_of_allPushed hinv hpend (searchOutput_crack hcur hix)

/-! ### CONSTRUCT (R224, R225, R234) -/

theorem exec_construct_of_idle {s : State} (h : s.cur = .none) :
    exec .construct s = .next (s.accept.beginConstruct s.cmdArg) :=
  (exec_construct s).trans (issue_of_idle _ ((busy_eq_false_iff s).2 h))

theorem status_of_idle_built {depth : Nat} (hdepth : 0 < depth) {s : State} (hidle : s.cur = .none) (herr : s.err = .none)
    (hbuilt : s.built = true) (hq : s.outq = []) : s.status depth = 0x00000002#32 := by
  have hfull : s.outFull depth = false := by rw [State.outFull, hq]; exact decide_eq_false hdepth.ne
  have hlevel : s.outNonempty = false := by rw [State.outNonempty, hq]; rfl
  rw [State.status, hfull, hlevel, herr, hbuilt, (busy_eq_false_iff s).2 hidle]
  rfl

/-- Settles O40: the branches of the issue, and the completion that follows it. -/
theorem constructBuildsForPolynomial : Obligations.ConstructBuildsForPolynomial := by
  unfold Obligations.ConstructBuildsForPolynomial
  refine ⟨decode_encode .construct, fun s hbusy => ?_, fun s hidle => exec_construct_of_idle hidle,
    fun depth s hcur => engineStep_of_construct depth hcur,
    fun depth s _ _ hcur => ⟨_, engineStep_of_construct depth hcur, rfl, rfl⟩, ?_⟩
  · exact (exec_construct s).trans (issue_of_busy _ ((busy_eq_true_iff s).2 hbusy))
  · rintro depth s t u hdepth rfl hissue hdone
    obtain rfl := Host.Outcome.next.inj ((exec_construct_of_idle rfl).symm.trans hissue)
    obtain rfl := Option.some.inj ((engineStep_of_construct depth rfl).symm.trans hdone)
    exact ⟨status_of_idle_built hdepth rfl rfl rfl rfl, rfl⟩

/-- With no turn left, an enabled engine step is the step. -/
theorem step_of_engineStep {s t : State} (hsched : s.sched = []) (h : engineStep Config.outDepth s = some t) :
    step s = .next t := by
  rw [step_eq, stepWith_noTurn hsched, engineFirst_of_engineStep h]

/-- Settles O41: the two writes issue the CONSTRUCT, and the engine's turn completes it. -/
theorem constructProgramBuildsAfresh : Obligations.ConstructProgramBuildsAfresh := by
  unfold Obligations.ConstructProgramBuildsAfresh
  intro s poly rest hidle hsched hq
  have hissue := (assembledCommandRuns s .construct poly rest hidle hsched hq).trans (exec_construct_of_idle hidle)
  have hdone := step_of_engineStep (s := (s.staged poly rest).accept.beginConstruct poly) hsched
    (engineStep_of_construct _ rfl)
  refine (run_add_of_next (M := core) 1 hissue).trans ((run_one core _).trans (hdone.trans ?_))
  rw [constructDone, State.endConstruct, ← hidle]
  rfl

/-! ### A search by itself (R228, R230) -/

/-- `s` with its search over: the words pending pushed and counted. -/
def State.searchDone (s : State) : State :=
  { s with cur := .none, pend := [], outq := s.outq ++ s.pend, candCount := s.candCount + BitVec.ofNat 32 s.pend.length }

theorem searchDone_of_noWord {s : State} (hpend : s.pend = []) : s.searchDone = s.endSearch := by
  simp [State.searchDone, State.endSearch, hpend]

theorem searchDone_push {s : State} {v : OutWord} {rest : List OutWord} (hpend : s.pend = v :: rest) :
    ((s.setPend rest).push v).searchDone = s.searchDone := by
  have hcount : s.candCount + BitVec.ofNat 32 (rest.length + 1) = s.candCount + 1#32 + BitVec.ofNat 32 rest.length := by
    rw [Nat.add_comm, BitVec.ofNat_add, BitVec.add_assoc]
  simp [State.searchDone, State.push, State.setPend, hpend, hcount]

/-- By induction on the words pending: each step pushes one, and the last step is Finish. -/
theorem run_search {s : State} {words : List OutWord} (hpend : s.pend = words) (hsearch : s.searching = true)
    (hsched : s.sched = []) (hfit : s.outq.length + words.length ≤ Config.outDepth) :
    core.run (words.length + 1) s = .next s.searchDone := by
  induction words generalizing s with
  | nil =>
    have hfinish := (engineStep_of_searching Config.outDepth hsearch).trans (searchStep_of_noWord _ hpend)
    rw [searchDone_of_noWord hpend]
    exact (run_one core s).trans (step_of_engineStep hsched hfinish)
  | cons v rest ih =>
    rw [List.length_cons] at hfit
    have hpush := (engineStep_of_searching Config.outDepth hsearch).trans
      (searchStep_of_room hpend (show s.outq.length < Config.outDepth by omega))
    refine (run_succ_of_next (M := core) _ (step_of_engineStep hsched hpush)).trans ?_
    rw [← searchDone_push hpend]
    refine ih (s := (s.setPend rest).push v) rfl hsearch hsched ?_
    rw [State.push_outq, State.setPend_outq, List.length_append, List.length_singleton]
    omega

/-- Settles O46: a FIFO with room for all the words never holds the search. -/
theorem fittingSearchCompletes : Obligations.FittingSearchCompletes := by
  unfold Obligations.FittingSearchCompletes
  exact fun s hsearch hsched hfit => run_search rfl hsearch hsched hfit

/-! ### What a step does to the output (R228, R229, R231) -/

theorem busy_of_searching {s : State} (h : s.searching = true) : s.busy = true := by
  obtain hcur | hcur := (searching_eq_true_iff s).1 h <;> rw [State.busy, hcur]

/-- Settles O45: of the moves that a busy machine has, a push moves a word within the sequence and a pop takes its head. -/
theorem busyStepConservesOutput : Obligations.BusyStepConservesOutput := by
  unfold Obligations.BusyStepConservesOutput
  intro s t hbusy hr h
  cases move_of_step hr h with
  | completion | finish | quiet | stage | refusal => exact .inl rfl
  | push _ hpend => exact .inl (by simp [hpend])
  | pop =>
    cases houtq : s.outq with
    | nil => exact .inl (by simp [houtq])
    | cons v rest => exact .inr ⟨v, by simp [houtq], rfl, congrArg _ (outData_of_cons houtq)⟩
  | issue _ hidle => exact absurd hidle ((busy_eq_true_iff s).1 hbusy)

/-! ### The hold (R232) -/

theorem engineStep_of_held {s : State} (h : s.held Config.outDepth) : engineStep Config.outDepth s = none := by
  obtain ⟨hsearch, hpend, hfull⟩ := h
  obtain ⟨v, rest, hpend⟩ := List.exists_cons_of_ne_nil hpend
  exact (engineStep_of_searching _ hsearch).trans (searchStep_of_full hpend hfull.ge.not_gt)

theorem hostOp_has_next (depth : Nat) (op : HostOp) (s : State) : ∃ t, hostOp depth op s = .next t := by
  obtain ⟨r, ops, h⟩ | ⟨-, ops, h⟩ | ⟨v, -, h⟩ | ⟨v, -, h⟩ := hostOp_cases depth op s
  iterate 3 exact ⟨_, h⟩
  · obtain ⟨t, ht, -⟩ := issueCommand_has_next v (s.respond .done)
    exact ⟨t, h.trans ht⟩

/-- A step always has a next state, a refusal or a BusFault included. -/
theorem step_has_next (s : State) : ∃ t, step s = .next t := by
  obtain ⟨ts, -, h⟩ | ⟨-, ⟨t, -, h⟩ | ⟨op, rest, -, h⟩ | ⟨-, -, h⟩⟩ := stepWith_cases (step_eq s).symm
  iterate 2 exact ⟨_, h⟩
  · obtain ⟨t, ht⟩ := hostOp_has_next Config.outDepth op ((s.setSched s.sched.tail).setHostq rest)
    exact ⟨t, h.trans ht⟩
  · exact ⟨_, h⟩

/-- Only a pop or a reset lifts a hold. -/
theorem held_move {s t : State} (h : s.held Config.outDepth) (m : Move s t)
    (hread : ∀ rest, s.hostq ≠ .access (.read 0x10 4) :: rest) (hdrain : ∀ rest, s.hostq ≠ .drain :: rest) :
    t.held Config.outDepth := by
  obtain ⟨hsearch, hpend, hfull⟩ := h
  have hbusy := (searching_eq_true_iff s).1 hsearch
  cases m with
  | completion hcur => simp [hcur] at hbusy
  | finish _ hnil => exact absurd hnil hpend
  | push _ _ hroom => exact absurd hfull hroom.ne
  | quiet | stage | refusal => exact ⟨hsearch, hpend, hfull⟩
  | pop _ hq hop =>
    obtain rfl | rfl := hop
    · exact absurd hq (hread _)
    · exact absurd hq (hdrain _)
  | issue _ hidle => simp [hidle] at hbusy

/-- A pop makes room for the word that waits. -/
theorem engineStep_isSome_of_pop {s t : State} (h : s.held Config.outDepth) (hsearch : t.searching = s.searching)
    (hpend : t.pend = s.pend) (houtq : t.outq = s.outq.tail) : (engineStep Config.outDepth t).isSome = true := by
  obtain ⟨hs, hp, hfull⟩ := h
  obtain ⟨v, rest, hp⟩ := List.exists_cons_of_ne_nil hp
  have hroom : t.outq.length < Config.outDepth := by
    rw [houtq, List.length_tail, hfull]
    exact Nat.sub_lt outDepth_pos Nat.one_pos
  rw [engineStep_of_searching _ (hsearch.trans hs), searchStep_of_room (hpend.trans hp) hroom, Option.isSome_some]

/-- The two operations that pop: an OUT_DATA read, and DRAIN, which may stay with the host. -/
theorem hostOp_pops (depth : Nat) {op : HostOp} (hop : op = .access (.read 0x10 4) ∨ op = .drain) (s : State) :
    ∃ ops, hostOp depth op s = .next ((s.pop.respond (.data s.outData)).setHostq ops) := by
  obtain rfl | rfl := hop
  · exact ⟨s.hostq, hostOp_read_outData depth s⟩
  · obtain ⟨ops, h⟩ := loopWhile_eq 31 .drain (memRead depth 0x10 4 s)
    exact ⟨ops, congrArg _ h⟩

theorem not_held_resetCore (s : State) : ¬s.resetCore.held Config.outDepth := fun h => nomatch h.1

/-- Settles O44: a hold has no engine step, so the host's next operation is the step and only a pop among them makes room;
a reset ends the search. -/
theorem holdLiftedOnlyByPopOrReset : Obligations.HoldLiftedOnlyByPopOrReset := by
  unfold Obligations.HoldLiftedOnlyByPopOrReset
  refine ⟨fun s => engineStep_of_held, fun s h hr hread hdrain => ?_, fun s rest h hr hq => ?_, fun s hr => ?_⟩
  · obtain ⟨t, ht⟩ := step_has_next s
    have hheld := held_move h (move_of_step hr ht) hread hdrain
    exact ⟨t, ht, hheld, busy_of_searching hheld.1⟩
  · obtain ⟨op, hop, hq⟩ : ∃ op, (op = .access (.read 0x10 4) ∨ op = .drain) ∧ s.hostq = op :: rest := by
      obtain hq | hq := hq
      · exact ⟨_, .inl rfl, hq⟩
      · exact ⟨_, .inr rfl, hq⟩
    have hstep := hostTurnPerformsNextOperation s op rest hq (.inr ⟨hr, engineStep_of_held h⟩)
    obtain ⟨ops, hpop⟩ := hostOp_pops Config.outDepth hop { s with hostq := rest, sched := s.sched.tail }
    exact ⟨_, hstep.trans hpop, engineStep_isSome_of_pop h rfl rfl rfl⟩
  · exact ⟨_, step_of_resetTurn hr, not_held_resetCore _, rfl⟩

end Sys2Proof.Machine
end

section
/-! Proof of the statement about the loop over CRACK's progress registers (10_state.md R39, 44_engine_control.md R233): what
the loop emits from a point of it, first for one bucket, then for the prefixes of a hypothesis, then for all hypotheses. -/

namespace Sys2Proof.Machine

/-! ### The words emitted from a point of the loop -/

/-- From the registers `r` the loop comes to its end and emits `ws` on the way. -/
def Emits (ix : Index) (r : CrackRegs) (ws : List OutWord) : Prop := ∃ fuel, loopWords ix fuel r = some ws

/-- The loop that makes the move `m` comes to its end and emits `ws` with this move and after it. -/
def MoveEmits (ix : Index) (ws : List OutWord) : LoopMove → Prop
  | .emit v r => ∃ vs, ws = v :: vs ∧ Emits ix r vs
  | .go r => Emits ix r ws
  | .done => ws = []

theorem emits_of_loopStep {ix : Index} {r : CrackRegs} {ws : List OutWord} (h : MoveEmits ix ws (loopStep ix r)) :
    Emits ix r ws := by
  cases hstep : loopStep ix r with
  | emit v r' =>
    rw [hstep] at h
    obtain ⟨vs, rfl, fuel, hvs⟩ := h
    exact ⟨fuel + 1, by rw [loopWords, hstep]; simp only [hvs, Option.map_some]⟩
  | go r' =>
    rw [hstep] at h
    obtain ⟨fuel, hws⟩ := h
    exact ⟨fuel + 1, by rw [loopWords, hstep]; exact hws⟩
  | done =>
    rw [hstep] at h
    obtain rfl := h
    exact ⟨1, by rw [loopWords, hstep]⟩

/-! ### The scan of a bucket (R189, R190) -/

/-- The candidate that the hypothesis of `r` makes of a looked-up value. -/
def CrackRegs.word (r : CrackRegs) (v : Offset) : OutWord :=
  if r.hyp.toNat < Config.hypSplit then v.setWidth 30 else candidate r.pfx.toNat v

/-- The candidates of the offsets from SCAN to the end of the bucket. -/
def scanWords (ix : Index) (r : CrackRegs) : List OutWord :=
  ((List.range' r.scan.toNat (bucketEnd ix (bucketKey r.key) - r.scan.toNat)).filterMap fun j =>
    if rd ix.sdig j = r.key then some (rd ix.sval j) else none).map r.word

/-- The registers with SCAN moved. -/
abbrev CrackRegs.withScan (r : CrackRegs) (o : Offset) : CrackRegs := { r with scan := o }

theorem found_eq_word (ix : Index) (r : CrackRegs) : r.found ix = r.word (rd ix.sval r.scan.toNat) := rfl

theorem loopStep_inBucket {ix : Index} {r : CrackRegs} (h : r.scan.toNat < bucketEnd ix (bucketKey r.key)) :
    loopStep ix r = if rd ix.sdig r.scan.toNat = r.key then
      .emit (r.word (rd ix.sval r.scan.toNat)) (r.withScan (r.scan + 1#17)) else .go (r.withScan (r.scan + 1#17)) := by
  rw [loopStep, if_pos h, found_eq_word]

theorem loopStep_bucketDone {ix : Index} {r : CrackRegs} (h : bucketEnd ix (bucketKey r.key) ≤ r.scan.toNat) :
    loopStep ix r = loopNext ix r := if_neg h.not_gt

theorem scanWords_bucketDone {ix : Index} {r : CrackRegs} (h : bucketEnd ix (bucketKey r.key) ≤ r.scan.toNat) :
    scanWords ix r = [] := by
  rw [scanWords, Nat.sub_eq_zero_of_le h]; rfl

/-- A bucket's end is an offset too, so SCAN does not wrap before it. -/
theorem toNat_scan_succ {ix : Index} {r : CrackRegs} (h : r.scan.toNat < bucketEnd ix (bucketKey r.key)) :
    (r.scan + 1#17).toNat = r.scan.toNat + 1 :=
  BitVec.toNat_add_of_lt (Nat.lt_of_le_of_lt h (rd ix.bkt (bucketKey r.key + 1)).isLt)

theorem scanWords_inBucket {ix : Index} {r : CrackRegs} (h : r.scan.toNat < bucketEnd ix (bucketKey r.key)) :
    scanWords ix r = (if rd ix.sdig r.scan.toNat = r.key then [r.word (rd ix.sval r.scan.toNat)] else []) ++
      scanWords ix (r.withScan (r.scan + 1#17)) := by
  obtain ⟨n, hn⟩ := Nat.exists_eq_add_of_lt h
  have hrest : scanWords ix (r.withScan (r.scan + 1#17)) = ((List.range' (r.scan.toNat + 1) n).filterMap fun j =>
      if rd ix.sdig j = r.key then some (rd ix.sval j) else none).map r.word := by
    have hkey : (r.withScan (r.scan + 1#17)).key = r.key := rfl
    have hword : (r.withScan (r.scan + 1#17)).word = r.word := rfl
    have hleft : bucketEnd ix (bucketKey r.key) - (r.scan.toNat + 1) = n := by omega
    rw [scanWords, hkey, hword, toNat_scan_succ h, hleft]
  have hall : bucketEnd ix (bucketKey r.key) - r.scan.toNat = n + 1 := by omega
  rw [hrest, scanWords, hall, List.range'_succ]
  by_cases hfound : rd ix.sdig r.scan.toNat = r.key
  · simp [hfound]
  · simp [hfound]

/-- What follows an exhausted bucket does not depend on where the scan ended. -/
theorem loopNext_withScan (ix : Index) (r : CrackRegs) (o : Offset) : loopNext ix (r.withScan o) = loopNext ix r := rfl

/-- By induction on the offsets that are left: the scan emits the candidates of the bucket and moves on. -/
theorem emits_scan {ix : Index} {r : CrackRegs} {ws : List OutWord} {n : Nat}
    (hn : bucketEnd ix (bucketKey r.key) - r.scan.toNat = n) (hnext : MoveEmits ix ws (loopNext ix r)) :
    Emits ix r (scanWords ix r ++ ws) := by
  induction n generalizing r with
  | zero =>
    have hdone := Nat.le_of_sub_eq_zero hn
    apply emits_of_loopStep
    rwa [scanWords_bucketDone hdone, loopStep_bucketDone hdone]
  | succ n ih =>
    have hin : r.scan.toNat < bucketEnd ix (bucketKey r.key) := by omega
    have hleft : bucketEnd ix (bucketKey r.key) - (r.scan + 1#17).toNat = n := by
      rw [toNat_scan_succ hin]; omega
    have hrest := ih (r := r.withScan (r.scan + 1#17)) hleft (by rwa [loopNext_withScan])
    apply emits_of_loopStep
    rw [loopStep_inBucket hin, scanWords_inBucket hin]
    split
    · exact ⟨_, rfl, hrest⟩
    · exact hrest

/-- From the start of a bucket the loop emits the candidates of a lookup. -/
theorem emits_enterBucket {ix : Index} {r : CrackRegs} {ws : List OutWord} (hnext : MoveEmits ix ws (loopNext ix r)) :
    Emits ix (enterBucket ix r) ((lookupSeq ix r.key).map r.word ++ ws) :=
  emits_scan (r := enterBucket ix r) rfl hnext

/-! ### The prefixes of a hypothesis (R188 step 4c) -/

/-- What follows the last bucket of a hypothesis: the next hypothesis, or the end. -/
def afterHyp (ix : Index) (r : CrackRegs) : LoopMove :=
  if r.hyp.toNat < Config.hypMax then .go (enterHyp ix (r.hyp.toNat + 1) r) else .done

theorem loopNext_low {ix : Index} {r : CrackRegs} (h : r.hyp.toNat < 6) : loopNext ix r = afterHyp ix r :=
  if_neg fun hhigh => hhigh.1.not_gt h

theorem loopNext_lastPrefix {ix : Index} {r : CrackRegs} (h : 10 ^ (r.hyp.toNat - 5) ≤ r.pfx.toNat + 1) :
    loopNext ix r = afterHyp ix r :=
  if_neg fun hmore => hmore.2.not_ge h

theorem loopNext_prefix {ix : Index} {r : CrackRegs} (h6 : 6 ≤ r.hyp.toNat)
    (h : r.pfx.toNat + 1 < 10 ^ (r.hyp.toNat - 5)) : loopNext ix r = .go (enterPrefix ix (r.pfx.toNat + 1) r) :=
  if_pos ⟨h6, h⟩

/-- The loop runs hypothesis `i` for `target`. -/
structure InHyp (ix : Index) (target : Word) (i : Nat) (r : CrackRegs) : Prop where
  hyp : r.hyp.toNat = i
  tgt : r.tgt = target
  preg : r.preg = prefixReg ix.tbl i

/-- The registers with PFX at `p` and AUX its digest; SCAN is not moved yet. -/
abbrev CrackRegs.atPrefix (ix : Index) (p : Nat) (r : CrackRegs) : CrackRegs :=
  { r with pfx := BitVec.ofNat 14 p, aux := digestOf ix.tbl p true }

/-- The candidates that hypothesis `i` makes with the high-order digits `p`. -/
def prefixWords (ix : Index) (target : Word) (i p : Nat) : List OutWord :=
  (lookupSeq ix (target ^^^ prefixReg ix.tbl i ^^^ digestOf ix.tbl p true)).map (candidate p)

section Hypothesis

variable {ix : Index} {target : Word} {i : Nat} {r : CrackRegs} {ws : List OutWord}

theorem InHyp.atPrefix (h : InHyp ix target i r) (p : Nat) : InHyp ix target i (r.atPrefix ix p) := { h with }

theorem key_low (h : InHyp ix target i r) (hi : i < 6) : r.key = target ^^^ prefixReg ix.tbl i := by
  rw [CrackRegs.key, h.hyp, if_pos (show i < Config.hypSplit from hi), h.tgt, h.preg]

theorem key_high (h : InHyp ix target i r) (hi : 6 ≤ i) : r.key = target ^^^ prefixReg ix.tbl i ^^^ r.aux := by
  rw [CrackRegs.key, h.hyp, if_neg (show ¬i < Config.hypSplit from hi.not_gt), h.tgt, h.preg]

theorem word_low (h : InHyp ix target i r) (hi : i < 6) : r.word = fun v => v.setWidth 30 := by
  funext v
  rw [CrackRegs.word, h.hyp, if_pos (show i < Config.hypSplit from hi)]

theorem word_high (h : InHyp ix target i r) (hi : 6 ≤ i) : r.word = candidate r.pfx.toNat := by
  funext v
  rw [CrackRegs.word, h.hyp, if_neg (show ¬i < Config.hypSplit from hi.not_gt)]

/-- The high-order digits of every candidate fit PFX. -/
theorem toNat_pfx {p : Nat} (hi : i ≤ 9) (hp : p < 10 ^ (i - 5)) : (BitVec.ofNat 14 p).toNat = p := by
  have hpow : 10 ^ (i - 5) ≤ 10 ^ 4 := Nat.pow_le_pow_right (by decide) (by omega)
  rw [BitVec.toNat_ofNat]
  exact Nat.mod_eq_of_lt ((hp.trans_le hpow).trans (by decide))

theorem emits_enterPrefix (h : InHyp ix target i r) (h6 : 6 ≤ i) (h9 : i ≤ 9) {p : Nat} (hp : p < 10 ^ (i - 5))
    (hnext : MoveEmits ix ws (loopNext ix (r.atPrefix ix p))) :
    Emits ix (enterPrefix ix p r) (prefixWords ix target i p ++ ws) := by
  have hbucket := emits_enterBucket hnext
  rw [key_high (h.atPrefix p) h6, word_high (h.atPrefix p) h6, toNat_pfx h9 hp] at hbucket
  exact hbucket

/-- By induction on the prefixes that are left: the loop emits the candidates of each, ascending, and moves on. -/
theorem emits_prefixes (h6 : 6 ≤ i) (h9 : i ≤ 9) (hend : ∀ r, InHyp ix target i r → MoveEmits ix ws (afterHyp ix r))
    {n p : Nat} (hn : p + (n + 1) = 10 ^ (i - 5)) (h : InHyp ix target i r) :
    Emits ix (enterPrefix ix p r) ((List.range' p (n + 1)).flatMap (prefixWords ix target i) ++ ws) := by
  induction n generalizing p r with
  | zero =>
    have hp : p < 10 ^ (i - 5) := by omega
    have hlast : loopNext ix (r.atPrefix ix p) = afterHyp ix (r.atPrefix ix p) :=
      loopNext_lastPrefix (by rw [(h.atPrefix p).hyp, toNat_pfx h9 hp]; exact hn.ge)
    have hnext := hend _ (h.atPrefix p)
    rw [← hlast] at hnext
    rw [List.range'_one, List.flatMap_singleton]
    exact emits_enterPrefix h h6 h9 hp hnext
  | succ n ih =>
    have hp : p < 10 ^ (i - 5) := by omega
    have hmore : loopNext ix (r.atPrefix ix p) = .go (enterPrefix ix (p + 1) (r.atPrefix ix p)) := by
      have hpfx : (r.atPrefix ix p).pfx.toNat = p := toNat_pfx h9 hp
      rw [loopNext_prefix ((h.atPrefix p).hyp.symm ▸ h6) (by rw [(h.atPrefix p).hyp, hpfx]; omega), hpfx]
    rw [List.range'_succ, List.flatMap_cons, List.append_assoc]
    refine emits_enterPrefix h h6 h9 hp ?_
    rw [hmore]
    exact ih (by omega) (h.atPrefix p)

/-! ### The hypotheses (R187, R188) -/

/-- The registers with HYP and PREG advanced to hypothesis `i`. -/
abbrev CrackRegs.atHyp (ix : Index) (i : Nat) (r : CrackRegs) : CrackRegs :=
  { r with hyp := BitVec.ofNat 4 i, preg := update ix.tbl r.preg Config.padByte }

theorem enterHyp_low (hi : i < 6) : enterHyp ix i r = enterBucket ix (r.atHyp ix i) := if_pos hi

theorem enterHyp_high (hi : 6 ≤ i) : enterHyp ix i r = enterPrefix ix (10 ^ (i - 6)) (r.atHyp ix i) :=
  if_neg hi.not_gt

theorem InHyp.atHyp (h : InHyp ix target i r) (h9 : i < 9) : InHyp ix target (i + 1) (r.atHyp ix (i + 1)) where
  hyp := by rw [BitVec.toNat_ofNat]; exact Nat.mod_eq_of_lt (by omega)
  tgt := h.tgt
  preg := by rw [prefixReg_succ, ← h.preg]

theorem crackHyp_eq_flatMap (hi : 6 ≤ i) :
    crackHyp ix target i = (highPrefixes i).flatMap (prefixWords ix target i) := crackHyp_high ix target hi

/-- A hypothesis emits its candidates and moves on. -/
theorem emits_enterHyp (h : InHyp ix target i (r.atHyp ix i)) (h9 : i ≤ 9)
    (hend : ∀ r, InHyp ix target i r → MoveEmits ix ws (afterHyp ix r)) :
    Emits ix (enterHyp ix i r) (crackHyp ix target i ++ ws) := by
  obtain hlow | hhigh := Nat.lt_or_ge i 6
  · have hnext := hend _ h
    rw [← loopNext_low (h.hyp.trans_lt hlow)] at hnext
    have hbucket := emits_enterBucket hnext
    rw [key_low h hlow, word_low h hlow] at hbucket
    rw [enterHyp_low hlow, crackHyp_low ix target hlow]
    exact hbucket
  · have hpow : 10 ^ (i - 6) < 10 ^ (i - 5) := Nat.pow_lt_pow_right (by decide) (by omega)
    obtain ⟨n, hn⟩ := Nat.exists_eq_add_of_lt hpow
    have hcount : 10 ^ (i - 5) - 10 ^ (i - 6) = n + 1 := by omega
    rw [enterHyp_high hhigh, crackHyp_eq_flatMap hhigh, highPrefixes, hcount]
    exact emits_prefixes hhigh h9 hend (by omega) h

/-- By induction on the hypotheses that are left: the loop emits the candidates of each, in order, and ends. -/
theorem emits_hypotheses {n : Nat} (hn : i + n = 9) (h : InHyp ix target i r) :
    MoveEmits ix ((List.range' (i + 1) n).flatMap (crackHyp ix target)) (afterHyp ix r) := by
  induction n generalizing i r with
  | zero =>
    rw [afterHyp, h.hyp, if_neg (show ¬i < Config.hypMax from hn.ge.not_gt)]
    rfl
  | succ n ih =>
    rw [afterHyp, h.hyp, if_pos (show i < Config.hypMax by rw [Config.hypMax]; omega), List.range'_succ,
      List.flatMap_cons]
    exact emits_enterHyp (h.atHyp (by omega)) (by omega) fun r' h' => ih (by omega) h'

end Hypothesis

/-- Settles O38: the loop starts as after a hypothesis 0, and then emits the candidates of hypotheses 1 to 9. -/
theorem crackLoopEmitsCrackSeq : Obligations.CrackLoopEmitsCrackSeq := by
  unfold Obligations.CrackLoopEmitsCrackSeq
  intro ix target
  have hstart : InHyp ix target 0
      { tgt := target, hyp := 0#4, preg := Config.pregInit, pfx := 0#14, aux := 0#32, scan := 0#17 } :=
    ⟨rfl, rfl, rfl⟩
  exact emits_hypotheses (n := 9) rfl hstart

end Sys2Proof.Machine
end

section
/-! Proofs of the statements about refusals (60_exceptions.md): what a command and an OP word do under each of the checks of
R242, and what the host then reads in STATUS. -/

namespace Sys2Proof.Machine

/-! ### A command under each check (R243, R245) -/

/-- The effect of a command that needs BUILT reads the arrays. -/
theorem index_ne_none_of_accepted {i : Instr} {s t : State} (h : Accepted i s t) (hneeds : needsBuilt i = true) :
    s.index ≠ none := by
  cases i with
  | construct | hashReset | hashChar | hashLoad | resultLoad => cases hneeds
  | crack | tableRead | crcUpdate | digest | digestPad | lookup =>
    obtain ⟨ix, hix, -⟩ := h
    exact hix ▸ Option.some_ne_none ix

theorem err_of_accepted {i : Instr} {s t : State} (h : Accepted i s t) : t.err = .none := by
  obtain ⟨-, rfl⟩ | ⟨-, w, rfl⟩ | ⟨-, w, rfl⟩ | ⟨-, ws, rfl⟩ | ⟨-, w, ws, rfl⟩ := accepted_cases h <;> simp

theorem exec_of_busy (i : Instr) {s : State} (hbusy : s.busy = true) : exec i s = .next (s.refuse .busy) := by
  obtain ⟨t, h⟩ := exec_has_next i s
  obtain ⟨-, rfl⟩ | ⟨hidle, -⟩ | ⟨hidle, -⟩ := exec_next_cases h
  · exact h
  all_goals exact absurd hidle (by simp [hbusy])

theorem exec_of_unbuilt {i : Instr} {s : State} (hidle : s.busy = false) (hneeds : needsBuilt i = true)
    (hnone : s.index = none) : exec i s = .next (s.refuse .notBuilt) := by
  obtain ⟨t, h⟩ := exec_has_next i s
  obtain ⟨hbusy, -⟩ | ⟨-, -, -, rfl⟩ | ⟨-, hacc⟩ := exec_next_cases h
  · exact absurd hbusy (by simp [hidle])
  · exact h
  · exact absurd hnone (index_ne_none_of_accepted hacc hneeds)

theorem exec_accepts {i : Instr} {s : State} (hidle : s.busy = false) (hbuilt : needsBuilt i = true → s.index ≠ none) :
    ∃ t, exec i s = .next t ∧ t.err = .none := by
  obtain ⟨t, h⟩ := exec_has_next i s
  obtain ⟨hbusy, -⟩ | ⟨-, hneeds, hnone, -⟩ | ⟨-, hacc⟩ := exec_next_cases h
  · exact absurd hbusy (by simp [hidle])
  · exact absurd hnone (hbuilt hneeds)
  · exact ⟨t, h, err_of_accepted hacc⟩

/-! ### An OP word under each check, in the order of R242 -/

/-- BUSY comes first, whatever the word is. -/
theorem issueCommand_of_busy (v : Word) {s : State} (hcur : s.cur ≠ .none) :
    issueCommand v s = .next (s.refuse .busy) := by
  have hbusy := (busy_eq_true_iff s).2 hcur
  obtain ⟨i, -, h⟩ | ⟨-, -, -, h⟩ | ⟨-, -, hidle, -⟩ := issueCommand_cases v s
  · exact h.trans (exec_of_busy i hbusy)
  · exact h
  · exact absurd hidle (by simp [hbusy])

theorem issueCommand_of_illegal {v : Word} {s : State} (hcur : s.cur = .none)
    (hv : ¬(rsvField v = 0#24 ∧ opcField v ∈ opcodes)) : issueCommand v s = .next (s.refuse .illegalCommand) := by
  obtain ⟨i, hi, -⟩ | ⟨-, -, hbusy, -⟩ | ⟨-, -, -, h⟩ := issueCommand_cases v s
  · exact absurd ((decode_ok_iff v).1 ⟨i, hi⟩) hv
  · exact absurd hcur ((busy_eq_true_iff s).1 hbusy)
  · exact h

theorem issueCommand_encode (i : Instr) (s : State) : issueCommand (encode i) s = exec i s :=
  issueCommand_of_decode (decode_encode i) s

theorem issueCommand_of_unbuilt {i : Instr} {s : State} (hcur : s.cur = .none) (hneeds : needsBuilt i = true)
    (hnone : s.index = none) : issueCommand (encode i) s = .next (s.refuse .notBuilt) :=
  (issueCommand_encode i s).trans (exec_of_unbuilt ((busy_eq_false_iff s).2 hcur) hneeds hnone)

theorem issueCommand_accepts {i : Instr} {s : State} (hcur : s.cur = .none)
    (hbuilt : needsBuilt i = true → s.index ≠ none) :
    ∃ t, issueCommand (encode i) s = .next t ∧ t.err = .none := by
  rw [issueCommand_encode]
  exact exec_accepts ((busy_eq_false_iff s).2 hcur) hbuilt

/-! ### The order of the checks (R242 to R245) -/

theorem mem_needsBuilt_rows_iff (i : Instr) :
    i ∈ ([.tableRead, .crcUpdate, .digest, .digestPad, .lookup, .crack] : List Instr) ↔ needsBuilt i = true := by
  cases i <;> decide

theorem mem_needsNoBuilt_rows_iff (i : Instr) :
    i ∈ ([.construct, .hashReset, .hashChar, .hashLoad, .resultLoad] : List Instr) ↔ needsBuilt i = false := by
  cases i <;> decide

/-- Settles O3: a write of CMD_OP answers done and issues its word, and the two lists of commands are the two values of the
column `needs BUILT`. -/
theorem commandWriteChecksInOrder : Obligations.CommandWriteChecksInOrder := by
  unfold Obligations.CommandWriteChecksInOrder
  simp only [mem_needsBuilt_rows_iff, mem_needsNoBuilt_rows_iff, hostOp_write, memWrite_cmdOp]
  refine fun depth v s => ⟨fun hcur => issueCommand_of_busy v hcur, fun hcur hv => issueCommand_of_illegal hcur hv, ?_, ?_⟩
  · rintro i hcur rfl hneeds hnone
    exact issueCommand_of_unbuilt hcur hneeds hnone
  · rintro i hcur rfl hok
    have hbuilt (hneeds : needsBuilt i = true) : s.index ≠ none := hok.resolve_left (by simp [hneeds])
    obtain ⟨t, ht, herr⟩ := issueCommand_accepts (s := s.respond .done) hcur hbuilt
    exact ⟨t, ht, herr, (issueCommand_encode i _).symm.trans ht⟩

/-! ### The code of the last write (R241) -/

theorem exec_next_environment {i : Instr} {s t : State} (h : exec i s = .next t) :
    t.hostq = s.hostq ∧ t.sched = s.sched := by
  obtain ⟨-, rfl⟩ | ⟨-, -, -, rfl⟩ | ⟨-, hacc⟩ := exec_next_cases h
  iterate 2 exact ⟨State.refuse_hostq s _, State.refuse_sched s _⟩
  · obtain ⟨-, rfl⟩ | ⟨-, w, rfl⟩ | ⟨-, w, rfl⟩ | ⟨-, ws, rfl⟩ | ⟨-, w, ws, rfl⟩ := accepted_cases hacc <;> simp

/-- The issue of any word leaves what the host has still to do and the order of moves. -/
theorem issueCommand_next_environment {v : Word} {s t : State} (h : issueCommand v s = .next t) :
    t.hostq = s.hostq ∧ t.sched = s.sched := by
  obtain ⟨i, -, he⟩ | ⟨-, -, -, he⟩ | ⟨-, -, -, he⟩ := issueCommand_cases v s
  · exact exec_next_environment (he.symm.trans h)
  all_goals
    obtain rfl := Host.Outcome.next.inj (he.symm.trans h)
    exact ⟨State.refuse_hostq s _, State.refuse_sched s _⟩

/-- The host's turn with a read of STATUS answers STATUS. -/
theorem step_of_statusRead {s : State} {rest : List HostOp} (hq : s.hostq = .access (.read 0x08 4) :: rest)
    (hturn : s.sched.head? = some .host) :
    ∃ u, step s = .next u ∧ u.resp = .data (s.status Config.outDepth) :=
  ⟨_, (hostTurnPerformsNextOperation s _ rest hq (.inl hturn)).trans (hostOp_read_of_readWindow rfl), rfl⟩

/-- Settles O4: the first turn issues the word, the second reads the STATUS it left, and each check of the issue says which
code stands in the field ERR. -/
theorem statusReadShowsLastCommandCode : Obligations.StatusReadShowsLastCommandCode := by
  unfold Obligations.StatusReadShowsLastCommandCode
  intro s v rest ts hq hsched
  have hwrite : step s = issueCommand v (s.afterTurn (.access (.read 0x08 4) :: rest) .done) :=
    hostTurnPerformsNextOperation s _ _ hq (.inl (by rw [hsched, List.head?_cons]))
  obtain ⟨t, ht⟩ := step_has_next s
  obtain ⟨htq, htsched⟩ := issueCommand_next_environment (hwrite.symm.trans ht)
  obtain ⟨u, hu, hresp⟩ := step_of_statusRead htq (by simp [htsched, hsched])
  have shows {t' : State} (h : step s = .next t') : (t.status Config.outDepth).extractLsb' 2 3 = t'.err.code := by
    rw [status_field_err, Host.Outcome.next.inj (ht.symm.trans h)]
  refine ⟨t, u, _, ht, hu, hresp, fun hcur => shows (hwrite.trans (issueCommand_of_busy v hcur)),
    fun hcur hv => shows (hwrite.trans (issueCommand_of_illegal hcur hv)), ?_, ?_⟩
  · rintro i hcur rfl hneeds hnone
    exact shows (hwrite.trans (issueCommand_of_unbuilt hcur hneeds hnone))
  · rintro i hcur rfl hbuilt
    obtain ⟨t', h, herr⟩ := issueCommand_accepts (s := s.afterTurn (.access (.read 0x08 4) :: rest) .done) hcur hbuilt
    rw [shows (hwrite.trans h), herr]
    rfl

/-! ### No other end of a step (R247, R248) -/

/-- Settles O11: a reset, an engine step, a host operation and a wait each have a next state, and of the host's operations
the issue of a command has one because its refusals do. -/
theorem everyStepHasNextState : Obligations.EveryStepHasNextState := by
  unfold Obligations.EveryStepHasNextState
  exact step_has_next

end Sys2Proof.Machine
end

section
/-! Proofs of the statements about reset and the hazards of a host program (70_reset_and_hazards.md), over two layers that
other proofs can use: the two answers of a DRAIN, and the steps of a machine whose host drains it. -/

namespace Sys2Proof.Machine

/-! ### Reset and waiting (R270 to R272) -/

/-- Settles O13: a reset turn leaves the reset state whatever the machine was doing. -/
theorem resetFromEveryState : Obligations.ResetFromEveryState := by
  unfold Obligations.ResetFromEveryState
  exact fun s ts hsched => stepWith_resetTurn hsched

/-- Settles O10: of all that a step can do, only the wait needs neither a reset turn, nor an engine step, nor an operation
of the host. -/
theorem nothingEnabledWaits : Obligations.NothingEnabledWaits := by
  unfold Obligations.NothingEnabledWaits
  intro s hq hnone hr
  obtain ⟨ts, hsched, -⟩ | ⟨-, ⟨t, ht, -⟩ | ⟨op, rest, hop, -⟩ | ⟨-, -, hwait⟩⟩ := stepWith_cases (step_eq s).symm
  · exact absurd (by rw [hsched, List.head?_cons]) hr
  · rw [engineStep_setSched, hnone] at ht; cases ht
  · rw [hq] at hop; cases hop
  · exact hwait

/-! ### One access of a DRAIN (30_encoding.md R91, 44_engine_control.md R231) -/

/-- An empty FIFO ends the DRAIN: VALID reads 0. -/
theorem hostOp_drain_of_nil (depth : Nat) {s : State} (h : s.outq = []) :
    hostOp depth .drain s = .next (s.respond (.data 0#32)) := by
  have hread : memRead depth 0x10 4 s = s.respond (.data 0#32) := by
    rw [memRead_of_readWindow (w := s.outData) (t := s.pop) rfl, pop_of_nil h, outData_of_nil h]
  rw [hostOp, hread]
  rfl

theorem outData_valid {s : State} (h : s.outq ≠ []) : s.outData.getLsbD 31 = true := by
  obtain ⟨v, rest, h⟩ := List.exists_cons_of_ne_nil h
  rw [outData_of_cons h, BitVec.getLsbD_or]
  rfl

/-- A word in the FIFO keeps the DRAIN with the host: VALID reads 1. -/
theorem hostOp_drain_of_ne_nil (depth : Nat) {s : State} (h : s.outq ≠ []) :
    hostOp depth .drain s = .next ((s.pop.respond (.data s.outData)).setHostq (.drain :: s.hostq)) := by
  have hread : memRead depth 0x10 4 s = s.pop.respond (.data s.outData) := memRead_of_readWindow rfl
  rw [hostOp, hread, loopWhile, State.respond_resp]
  exact congrArg _ (if_pos (outData_valid h))

/-! ### A machine whose host drains it (R277, R282) -/

/-- `s` with its search over, its output read by the host, and `rest` left to the host. -/
def State.drained (s : State) (rest : List HostOp) : State :=
  { s.searchDone with outq := [], hostq := rest, sched := [], resp := .data 0#32 }

/-- `s` after an access of a DRAIN that popped a word: the DRAIN stays with the host, before `rest`. -/
abbrev State.afterDrainPop (s : State) (rest : List HostOp) : State :=
  s.pop.afterTurn (.drain :: rest) (.data s.outData)

/-- `s` with no turn left, the host about to go on with a DRAIN, and `rest` after it. -/
structure Draining (rest : List HostOp) (s : State) : Prop where
  noTurn : s.sched = []
  drain : s.hostq = .drain :: rest

/-- Some number of steps leads from `s` to its drained state. -/
def Drains (rest : List HostOp) (s : State) : Prop := ∃ n, core.run n s = .next (s.drained rest)

section Drain

variable {s t : State} {rest : List HostOp} {v : OutWord} {words : List OutWord}

theorem drains_of_step (h : step s = .next t) (hdrained : t.drained rest = s.drained rest) (ht : Drains rest t) :
    Drains rest s := by
  obtain ⟨n, hn⟩ := ht
  exact ⟨n + 1, (run_succ_of_next (M := core) n h).trans (hdrained ▸ hn)⟩

/-- The word pushed and the words still pending count the same as the words pending before. -/
theorem drained_push (hpend : s.pend = v :: words) :
    ((s.setPend words).push v).drained rest = s.drained rest :=
  congrArg (fun u : State => { u with outq := [], hostq := rest, sched := [], resp := .data 0#32 })
    (searchDone_push hpend)

theorem drained_of_idle (hd : Draining rest s) (hidle : s.cur = .none) (hpend : s.pend = []) (houtq : s.outq = []) :
    s.afterTurn rest (.data 0#32) = s.drained rest := by
  simp [State.drained, State.searchDone, State.afterTurn, State.respond, State.setHostq, State.setSched, hd.noTurn,
    hidle, hpend, houtq]

/-- An engine that cannot move leaves the step to the DRAIN. -/
theorem step_of_draining (hd : Draining rest s) (hnone : engineStep Config.outDepth s = none) :
    step s = hostOp Config.outDepth .drain ((s.setSched s.sched.tail).setHostq rest) :=
  hostTurnPerformsNextOperation s .drain rest hd.drain (.inr ⟨by rw [hd.noTurn]; exact nofun, hnone⟩)

theorem draining_afterDrainPop (hd : Draining rest s) : Draining rest (s.afterDrainPop rest) where
  noTurn := congrArg List.tail hd.noTurn
  drain := rfl

theorem step_of_drain_pop (hd : Draining rest s) (hnone : engineStep Config.outDepth s = none) (hne : s.outq ≠ []) :
    step s = .next (s.afterDrainPop rest) :=
  (step_of_draining hd hnone).trans (hostOp_drain_of_ne_nil _ (s := (s.setSched s.sched.tail).setHostq rest) hne)

/-- The word that the host reads is no part of the drained state. -/
theorem drained_afterDrainPop (s : State) (rest : List HostOp) : (s.afterDrainPop rest).drained rest = s.drained rest := rfl

theorem drains_of_pop (hd : Draining rest s) (hnone : engineStep Config.outDepth s = none) (hne : s.outq ≠ [])
    (ht : Drains rest (s.afterDrainPop rest)) : Drains rest s :=
  drains_of_step (step_of_drain_pop hd hnone hne) (drained_afterDrainPop s rest) ht

theorem drains_of_push (hd : Draining rest s) (hsearch : s.searching = true) (hpend : s.pend = v :: words)
    (hroom : s.outq.length < Config.outDepth) (ht : Drains rest ((s.setPend words).push v)) : Drains rest s :=
  have hpush := (engineStep_of_searching Config.outDepth hsearch).trans (searchStep_of_room hpend hroom)
  drains_of_step (step_of_engineStep hd.noTurn hpush) (drained_push hpend) ht

/-- By induction on the words in the FIFO: each access pops one, and the last finds none. -/
theorem drains_of_idle (hd : Draining rest s) (hidle : s.cur = .none) (hpend : s.pend = []) : Drains rest s := by
  induction hfifo : s.outq generalizing s with
  | nil =>
    have hlast := (step_of_draining hd (engineStep_of_idle _ hidle)).trans (hostOp_drain_of_nil _ hfifo)
    refine ⟨1, (run_one core s).trans (hlast.trans ?_)⟩
    exact congrArg _ (drained_of_idle hd hidle hpend hfifo)
  | cons u fifo ih =>
    refine drains_of_pop hd (engineStep_of_idle _ hidle) (hfifo ▸ List.cons_ne_nil u fifo) ?_
    exact ih (draining_afterDrainPop hd) hidle hpend (congrArg List.tail hfifo)

/-- By induction on the words pending, and on the words in the FIFO while it is full: a step pushes a word, pops one, or is
Finish. -/
theorem drains_of_searching (hd : Draining rest s) (hsearch : s.searching = true) : Drains rest s := by
  induction hpend : s.pend generalizing s with
  | nil =>
    have hfinish := (engineStep_of_searching Config.outDepth hsearch).trans (searchStep_of_noWord _ hpend)
    exact drains_of_step (step_of_engineStep hd.noTurn hfinish) rfl
      (drains_of_idle (s := s.endSearch) { hd with } rfl hpend)
  | cons v words ihPend =>
    induction hfifo : s.outq generalizing s with
    | nil =>
      have hroom : s.outq.length < Config.outDepth := hfifo ▸ outDepth_pos
      exact drains_of_push hd hsearch hpend hroom (ihPend { hd with } hsearch rfl)
    | cons u fifo ihFifo =>
      by_cases hroom : s.outq.length < Config.outDepth
      · exact drains_of_push hd hsearch hpend hroom (ihPend { hd with } hsearch rfl)
      · have hheld := (engineStep_of_searching Config.outDepth hsearch).trans (searchStep_of_full hpend hroom)
        refine drains_of_pop hd hheld (hfifo ▸ List.cons_ne_nil u fifo) ?_
        exact ihFifo (draining_afterDrainPop hd) hsearch hpend (congrArg List.tail hfifo)

end Drain

/-- Settles O47: OUT_DEPTH is at least 1, so a FIFO that holds the search has a word for the DRAIN to pop. -/
theorem drainingHostLetsSearchComplete : Obligations.DrainingHostLetsSearchComplete := by
  unfold Obligations.DrainingHostLetsSearchComplete
  intro s rest hsearch hsched hq
  obtain ⟨n, hn⟩ := drains_of_searching ⟨hsched, hq⟩ hsearch
  refine ⟨n, hn.trans ?_⟩
  rw [State.drained, ← hsched]
  rfl

end Sys2Proof.Machine
end
